-- ==== Sys2Proof/Word.lean ====
section
/-! DEFINITION. The words of the block: a byte (spec/00_scope.md R7) and a 32-bit operand register (spec/10_state.md R21).
Exact quantities (products, sums, offsets, slots) are Nat or Int, as R7 and R8 ask. -/

namespace Sys2Proof

/-- R7: "A byte is 8 bits, an unsigned integer in [0, 255]". Also a sample (R84), a reduced entry (R85) and a frame byte. -/
abbrev Byte := BitVec 8

/-- R21: `WIDTH` and `HEIGHT` are 32 bits, unsigned. -/
abbrev Word32 := BitVec 32

end Sys2Proof
end

