-- ==== Sys2Proof/Machine/Numeric.lean ====
section
/-! DEFINITION. The arithmetic primitives of spec/00_scope.md R8: "exact; none wraps unless it says mod". -/

namespace Sys2Proof.Machine

/-- R8: `floor(a / b)` for `b > 0`, rounding toward minus infinity (for a positive divisor, Lean's `/` on Int does). -/
def floorDiv (a : Int) (b : Nat) : Int := a / (b : Int)

/-- R8: ceiling division, `floor_div(a + b - 1, b)`, the sum not truncated. -/
def ceilDiv (a b : Nat) : Nat := (a + b - 1) / b

/-- R89, R90: the low byte of a 16-bit header field. -/
def lowByte (x : Nat) : Byte := BitVec.ofNat 8 (x % 256)

/-- R89, R90: the high byte of a 16-bit header field. -/
def highByte (x : Nat) : Byte := BitVec.ofNat 8 (x / 256)

end Sys2Proof.Machine
end

