-- ==== Sys2Proof/Config.lean ====
section
/-! DEFINITION. What one instance fixes (spec/00_scope.md R6) and the free values: what the spec leaves open and no
definition here fixes (notes/assumptions/1.md to 3.md, 14.md). -/

namespace Sys2Proof

/-- R6: the OPEN parameters of an instance, "configuration, not state: no command changes them" (R20). -/
structure Config where
  /-- `MAX_PIXELS` less one: R6 lets it be "any integer ≥ 1". -/
  morePixels : Nat
  /-- R92: the three bytes `OPC0, OPC1, OPC2` of `RASTER_OPCODE`. -/
  opc0 : Byte
  opc1 : Byte
  opc2 : Byte
  deriving DecidableEq, Repr, Inhabited

/-- R6: the parameter `MAX_PIXELS`, at least 1. -/
def Config.maxPixels (c : Config) : Nat := c.morePixels + 1

/-- The parameters of the instance that `State.reset` is the reset state of. DESIGN CHOICE (log 1): nothing is known of them. -/
opaque Config.chip : Config

/-- The three buffers the host can reach (spec/10_state.md R32); `WORK` is hidden and the tables are constants. -/
inductive Buffer where
  | pix
  | red
  | frame
  deriving DecidableEq, Repr

/-- Which instance `State.reset` is: nothing is known of it. DESIGN CHOICE (log 14). -/
opaque Config.thisSerial : Nat

/-- R34: what an element nobody has written holds in instance `serial` after reset `epoch`, a "free parameter" (log 2, log 3). It
depends on the instance, so that the contents of one say nothing about those of another (log 14). -/
opaque Config.unwrittenByte (serial epoch : Nat) (b : Buffer) (k : Nat) : Byte

/-- R34: what a `WORK` slot nobody has written holds in instance `serial` after reset `epoch` (log 2, log 14). No command reads
one (R28). -/
opaque Config.unwrittenSlot (serial epoch : Nat) (k : Nat) : Int

end Sys2Proof
end

