-- ==== Sys2Proof/Syntax.lean ====
section
/-! DEFINITION. The commands (spec/30_encoding.md R81): one constructor per row of spec/opcode_table.json.
R80: "Operands are not in the command byte", so no constructor carries any. -/

namespace Sys2Proof

inductive Instr where
  /-- `RED.T`: reduce, threshold mode (R131). -/
  | redT
  /-- `RED.D`: reduce, dithered mode (R133). -/
  | redD
  /-- `ENC`: encode the raster frame (R177). -/
  | enc
  deriving DecidableEq, Repr

end Sys2Proof
end

