-- ==== Sys2Proof/Machine/State.lean ====
section
/-! DEFINITION. The state of one instance (spec/10_state.md R20 to R31), the host's pending accesses, how a step can stop,
and the state after reset (R34, spec/70_reset_and_hazards.md R230). -/

namespace Sys2Proof.Machine

/-- The causes a launch can fault for, with their names in spec/60_exceptions.md R201. Codes 6 and 7 do not exist. -/
inductive LaunchFault where
  | cvCmd
  | cvDim
  | cvScale
  | resource
  | cvLen
  deriving DecidableEq, Repr

/-- `STATUS` (R24). The fault field is "0 unless state = FAULT", so only `fault` carries a code; reserved bits read 0. -/
inductive Status where
  | idle
  | busy
  | done
  | fault (cause : LaunchFault)
  deriving DecidableEq, Repr

/-- The scan counter (R26), with the pass it counts. `header` and `bitmap` are the byte steps of `ENC` (R238). -/
inductive Scan where
  | idle
  /-- `RED.T`, about to do pixel `p`. -/
  | threshold (p : Nat)
  /-- `RED.D` pass 1, about to do pixel `p`. -/
  | luminance (p : Nat)
  /-- `RED.D` pass 2, about to do pixel `p`. -/
  | diffusion (p : Nat)
  /-- `ENC`, about to write header byte `k`. -/
  | header (k : Nat)
  /-- `ENC`, about to write packed byte `k`. -/
  | bitmap (k : Nat)
  deriving DecidableEq, Repr

/-- The temporaries of R25, "live only inside one command". -/
structure Temps where
  n : Nat
  v : Int
  newPixel : Byte
  error : Int
  t : Nat
  bytesPerRow : Nat
  x16 : Nat
  deriving DecidableEq, Repr

/-- The temporaries between commands: R25, "none survives the command". DESIGN CHOICE (log 10). -/
def Temps.dead : Temps :=
  { n := 0, v := 0, newPixel := 0, error := 0, t := 0, bytesPerRow := 0, x16 := 0 }

/-- What the host can do to the block: R32, R60, R93, R94 and R230 (log 4). Register values and `CMD` bytes are taken at the
register's own width (R55, log 8). -/
inductive HostOp where
  /-- Write register number `r`. Register 0 is `CMD`: the launch is taken as one atomic step (R62). -/
  | write (r : Nat) (v : Nat)
  /-- Read register number `r`. -/
  | read (r : Nat)
  /-- Write one buffer element. -/
  | store (b : Buffer) (k : Nat) (v : Byte)
  /-- Read one buffer element. -/
  | load (b : Buffer) (k : Nat)
  /-- The same write to `CMD`, followed at the level of R10's small steps (log 5). -/
  | start (v : Byte)
  /-- R93 `WAIT`: "read STATUS until state is DONE or FAULT". -/
  | wait
  /-- R94: read `STATUS`; unless its state is `DONE`, leave out the next `n` statements. -/
  | whenDone (n : Nat)
  /-- The host makes no access in this step. -/
  | pause
  /-- R230: the reset, which can land also while `BUSY`. -/
  | reset
  deriving DecidableEq, Repr

/-- One instance. `cfg`, `serial`, `epoch`, `host`, `heard` and `awaits` are the model's own fields (logs 1, 3, 4, 13, 14); the
others are R20's. -/
structure State where
  /-- R6: the instance's parameters; no operation writes this field. -/
  cfg : Config
  /-- Which instance this is, for its unwritten contents alone; no operation writes this field, and nothing shows it (log 14). -/
  serial : Nat
  /-- R21 -/
  width : Word32
  /-- R21 -/
  height : Word32
  /-- R21 -/
  contrast : Byte
  /-- R21 -/
  scale : Byte
  /-- R22, `LENW` bits: see `lenw` for the width. -/
  pixlen : Nat
  /-- R22 -/
  redlen : Nat
  /-- R22 -/
  framelen : Nat
  /-- R24 -/
  status : Status
  /-- R27: the elements of `PIX` written since reset, by offset. -/
  pix : List Host.Cell
  /-- R28: the slots of `WORK` written since reset, by offset. -/
  work : List (Nat × Int)
  /-- R29: the entries of `RED` written since reset, by pixel index. -/
  red : List Host.Cell
  /-- R30: the bytes of `FRAME` written since reset, by byte offset. -/
  frame : List Host.Cell
  /-- R26 -/
  scan : Scan
  /-- R25 -/
  tmp : Temps
  /-- How many resets have been made: an unwritten element holds a fresh free value after each. -/
  epoch : Nat
  /-- The host's accesses still to be made, oldest first. -/
  host : List HostOp
  /-- What the host's latest read returned. -/
  heard : Option Nat
  /-- R234: the host has written `CMD` and has not since read a `STATUS` that is not `BUSY` (log 13). -/
  awaits : Bool
  deriving DecidableEq, Repr

/-- Why a step stops with a fault. The block's own faults are no stop: they are codes in `STATUS` (R204). -/
inductive Fault where
  /-- Raised by a host access to an element index at or beyond the buffer's size (R50): no such element exists. SAFE (log 7). -/
  | noSuchElement (b : Buffer) (k : Nat)
  deriving DecidableEq, Repr

/-- Why a step has no meaning. -/
inductive Refusal where
  /-- Raised by an arm of `exec` whose instruction has no meaning yet; no arm does. SAFE. -/
  | notModelled (mnemonic : String)
  /-- Raised by any host access but a read of `STATUS` while `BUSY`: spec/93_implementation_defined.md U1 asks for it (log 6). SAFE. -/
  | hostWhileBusy (op : HostOp)
  /-- Raised by the accesses R234 names, after `BUSY` has ended and before the host has read so: writes of registers and buffers,
  reads of buffers and length registers. R234 calls what the block then does undefined (log 13). SAFE. -/
  | hostBeforePoll (op : HostOp)
  deriving DecidableEq, Repr

/-- R34 and R230 for instance `serial` with parameters `c` that is reset for the `epoch`-th time. -/
def State.resetOf (c : Config) (serial epoch : Nat) : State :=
  { cfg := c, serial := serial, width := 0, height := 0, contrast := 0, scale := 0, pixlen := 0, redlen := 0, framelen := 0,
    status := .idle, pix := [], work := [], red := [], frame := [], scan := .idle, tmp := Temps.dead,
    epoch := epoch, host := [], heard := none, awaits := false }

/-- R34: the machine right after reset. -/
def State.reset : State := State.resetOf Config.chip Config.thisSerial 0

end Sys2Proof.Machine
end

