-- ==== Sys2Proof/Machine/Ops.lean ====
section
/-! DEFINITION. The operations on storage and registers every meaning is written with: element reads and writes
(spec/20_memory.md R50, R58), the single-field updates, raising a launch fault (spec/60_exceptions.md R204), beginning
and completing a command (spec/10_state.md R24), and the loop of a pass (R26). -/

namespace Sys2Proof.Machine

/-- The element listed at index `k`, if one is. -/
def Memory.get? {α : Type} : List (Nat × α) → Nat → Option α
  | [], _ => none
  | (a, x) :: m, k => if a = k then some x else Memory.get? m k

/-- Write one element, keeping the list sorted by index. -/
def Memory.put {α : Type} : List (Nat × α) → Nat → α → List (Nat × α)
  | [], k, x => [(k, x)]
  | (a, y) :: m, k, x =>
    if k < a then (k, x) :: (a, y) :: m
    else if k = a then (k, x) :: m
    else (a, y) :: Memory.put m k x

/-- The canonical form: indices strictly rising. An unlisted element has no known value, so any listed value differs from it. -/
def Memory.wf {α : Type} : List (Nat × α) → Bool
  | [] => true
  | [_] => true
  | (a, _) :: (b, y) :: m => decide (a < b) && Memory.wf ((b, y) :: m)

/-- Every listed index lies below `size`. -/
def Memory.within {α : Type} (m : List (Nat × α)) (size : Nat) : Bool := m.all fun c => decide (c.1 < size)

/-- R50: the number of elements of a buffer. -/
def bufferSize (c : Config) : Buffer → Nat
  | .pix => 4 * c.maxPixels
  | .red => c.maxPixels
  | .frame => 8 + ceilDiv c.maxPixels 8

/-- The elements of a buffer written since reset. -/
def State.cells (s : State) : Buffer → List Host.Cell
  | .pix => s.pix
  | .red => s.red
  | .frame => s.frame

/-- One element of a buffer. What an unlisted one reads as is here and only here: a free value (R34, log 2). -/
def State.byteAt (s : State) (b : Buffer) (k : Nat) : Byte :=
  (Memory.get? (s.cells b) k).getD (Config.unwrittenByte s.serial s.epoch b k)

/-- R9: `PIX[k]`. -/
def State.pixAt (s : State) (k : Nat) : Byte := s.byteAt .pix k

/-- R9: `RED[p]`. -/
def State.redAt (s : State) (p : Nat) : Byte := s.byteAt .red p

/-- `FRAME[k]`. -/
def State.frameAt (s : State) (k : Nat) : Byte := s.byteAt .frame k

/-- R9: `WORK[k]`. -/
def State.workAt (s : State) (k : Nat) : Int :=
  (Memory.get? s.work k).getD (Config.unwrittenSlot s.serial s.epoch k)

/-- A host write of `PIX[k]` (R27). -/
def State.putPix (s : State) (k : Nat) (v : Byte) : State := { s with pix := Memory.put s.pix k v }

/-- R9: `WORK[k] <- v`. -/
def State.putWork (s : State) (k : Nat) (v : Int) : State := { s with work := Memory.put s.work k v }

/-- R9: `RED[p] <- v`. -/
def State.putRed (s : State) (p : Nat) (v : Byte) : State := { s with red := Memory.put s.red p v }

/-- R9: `FRAME[k] <- v`. -/
def State.putFrame (s : State) (k : Nat) (v : Byte) : State := { s with frame := Memory.put s.frame k v }

def State.setWidth (s : State) (v : Word32) : State := { s with width := v }
def State.setHeight (s : State) (v : Word32) : State := { s with height := v }
def State.setContrast (s : State) (v : Byte) : State := { s with contrast := v }
def State.setScale (s : State) (v : Byte) : State := { s with scale := v }
def State.setPixlen (s : State) (v : Nat) : State := { s with pixlen := v }
def State.setRedlen (s : State) (v : Nat) : State := { s with redlen := v }
def State.setFramelen (s : State) (v : Nat) : State := { s with framelen := v }
def State.setStatus (s : State) (v : Status) : State := { s with status := v }
def State.setScan (s : State) (v : Scan) : State := { s with scan := v }
def State.setTmp (s : State) (v : Temps) : State := { s with tmp := v }
def State.setHost (s : State) (v : List HostOp) : State := { s with host := v }
def State.setHeard (s : State) (v : Option Nat) : State := { s with heard := v }
def State.setAwaits (s : State) (v : Bool) : State := { s with awaits := v }

/-- TAKING A FAULT (R204): `STATUS.state <- FAULT`, `STATUS.fault <- code`. "Nothing else changes". There is nothing to
return from: the host may launch again at once (R206). -/
def State.raise (s : State) (cause : LaunchFault) : State := s.setStatus (.fault cause)

/-- R24: at launch, `state <- BUSY`, `fault <- 0`. -/
def State.begin (s : State) : State := s.setStatus .busy

/-- R24: at the end of a command, `state <- DONE`; the scan counter stops and the temporaries are dead (R25, R26). -/
def State.complete (s : State) : State := ((s.setStatus .done).setScan .idle).setTmp Temps.dead

/-- R202: a launch. The checks decide before anything is read or written; if one fails the command faults, else it runs. -/
def State.launch (s : State) (check : Option LaunchFault) (run : State → State) : Host.Outcome State Fault Refusal :=
  match check with
  | some cause => .next (s.begin.raise cause)
  | none => .next (run s.begin)

/-- R26: a pass. The counter starts at `p`, is advanced by exactly 1 after each item, and stops after `count` of them. -/
def loop (body : Nat → State → State) : Nat → Nat → State → State
  | 0, _, s => s
  | count + 1, p, s => loop body count (p + 1) (body p s)

end Sys2Proof.Machine
end

