-- ==== Sys2Proof/Machine/Operands.lean ====
section
/-! DEFINITION. What the commands read out of registers and buffers (spec/30_encoding.md R83): the pixel count, the
samples of a pixel, an entry of the reduced array, the tap offsets, and the width of the length registers. -/

namespace Sys2Proof.Machine

/-- `WIDTH*HEIGHT`. R201: the product is exact, never truncated. -/
def State.pixels (s : State) : Nat := s.width.toNat * s.height.toNat

/-- R51: the red sample of pixel `p`. -/
def State.redSample (s : State) (p : Nat) : Byte := s.pixAt (4 * p)

/-- R51: the green sample of pixel `p`. -/
def State.greenSample (s : State) (p : Nat) : Byte := s.pixAt (4 * p + 1)

/-- R51: the blue sample of pixel `p`. The alpha sample, at `4*p + 3`, is read by no rule (R114). -/
def State.blueSample (s : State) (p : Nat) : Byte := s.pixAt (4 * p + 2)

/-- R161: `E(q) = RED[q] if q < N else 0`. -/
def State.entry (s : State) (q : Nat) : Byte := if q < s.pixels then s.redAt q else 0

/-- R163: `m = ceil_div(WIDTH*HEIGHT, 8)`, the number of packed bytes. -/
def State.packedBytes (s : State) : Nat := ceilDiv s.pixels 8

/-- R136: the six taps, in their order, relative to the current offset. -/
def tapOffsets (width : Nat) : List Nat :=
  [4, 8, 4 * width - 4, 4 * width, 4 * width + 4, 8 * width]

/-- R6: `LENW`, the "smallest n with 2^n > 4*MAX_PIXELS and 2^n > 8 + ceil(MAX_PIXELS/8)". -/
def lenw (c : Config) : Nat := Nat.log2 (max (4 * c.maxPixels) (8 + ceilDiv c.maxPixels 8)) + 1

end Sys2Proof.Machine
end

