-- ==== Sys2Proof/Machine/Flags.lean ====
section
/-! DEFINITION. The only flags of the block, `STATUS.state` and `STATUS.fault` (spec/10_state.md R24), the two outputs
that mirror them (spec/60_exceptions.md R207), and the launch checks that set them (R201 to R203). -/

namespace Sys2Proof.Machine

/-- R201: the code recorded for a cause. -/
def LaunchFault.code : LaunchFault → BitVec 3
  | .cvCmd => 1
  | .cvDim => 2
  | .cvScale => 3
  | .resource => 4
  | .cvLen => 5

/-- R24: `STATUS[1:0]`. -/
def Status.stateField : Status → BitVec 2
  | .idle => 0
  | .busy => 1
  | .done => 2
  | .fault _ => 3

/-- R24: `STATUS[6:4]`, "0 unless state = FAULT". -/
def Status.faultField : Status → BitVec 3
  | .idle => 0
  | .busy => 0
  | .done => 0
  | .fault cause => cause.code

/-- R24: `STATUS` as the host reads it; bits 7 and 3:2 read 0. -/
def Status.byte (st : Status) : Byte := 0#1 ++ st.faultField ++ 0#2 ++ st.stateField

/-- R207: the level output `done`. -/
def State.doneOut (s : State) : Bool := s.status.stateField == 2

/-- R207: the level output `fault`. -/
def State.faultOut (s : State) : Bool := s.status.stateField == 3

/-- R130, R203: the launch checks of `RED.T` and `RED.D`, lowest code first. -/
def State.reducerCheck (s : State) : Option LaunchFault :=
  if s.width = 0 ∨ s.height = 0 then some .cvDim
  else if s.pixels > s.cfg.maxPixels then some .resource
  else if s.pixlen ≠ 4 * s.pixels then some .cvLen
  else none

/-- R175, R203: the launch checks of `ENC`, lowest code first. -/
def State.encoderCheck (s : State) : Option LaunchFault :=
  if s.width = 0 ∨ s.height = 0 then some .cvDim
  else if s.scale.toNat > 3 then some .cvScale
  else if s.pixels > s.cfg.maxPixels then some .resource
  else if s.redlen ≠ s.pixels then some .cvLen
  else none

end Sys2Proof.Machine
end

