-- ==== Sys2Proof/Machine/Packer.lean ====
section
/-! DEFINITION. bit_packer (spec/42_bit_packer.md): eight reduced entries into one byte. -/

namespace Sys2Proof.Machine

/-- R160: `bit(e)`: every non-zero entry sets the bit. -/
def entryBit (e : Byte) : Nat := if e ≠ 0 then 1 else 0

/-- R160: `PACK8(e0 .. e7)`, the first entry in the most significant bit. -/
def pack8 (e0 e1 e2 e3 e4 e5 e6 e7 : Byte) : Byte :=
  BitVec.ofNat 8 (entryBit e0 * 128 + entryBit e1 * 64 + entryBit e2 * 32 + entryBit e3 * 16
    + entryBit e4 * 8 + entryBit e5 * 4 + entryBit e6 * 2 + entryBit e7)

/-- R161: packed byte `B[k]` of the reduced array. -/
def State.packedByte (s : State) (k : Nat) : Byte :=
  pack8 (s.entry (8 * k)) (s.entry (8 * k + 1)) (s.entry (8 * k + 2)) (s.entry (8 * k + 3))
    (s.entry (8 * k + 4)) (s.entry (8 * k + 5)) (s.entry (8 * k + 6)) (s.entry (8 * k + 7))

end Sys2Proof.Machine
end

