-- ==== Sys2Proof/Machine/Formatter.lean ====
section
/-! DEFINITION. frame_formatter (spec/43_frame_formatter.md): the header and the command `ENC`. -/

namespace Sys2Proof.Machine

/-- R176: `bytesPerRow = ceil_div(WIDTH, 8)`. -/
def bytesPerRow (width : Nat) : Nat := ceilDiv width 8

/-- R89: `x16`, twice the bytes per row, as a 16-bit field. -/
def columnField (bytesPerRow : Nat) : Nat := (bytesPerRow * 2) % 65536

/-- R90: `y16`, the row count as a 16-bit field. -/
def rowField (height : Nat) : Nat := height % 65536

/-- R25, R176: the temporaries of the header. -/
def headerTemps (s : State) : Temps :=
  let rowBytes := bytesPerRow s.width.toNat
  { s.tmp with bytesPerRow := rowBytes, x16 := columnField rowBytes }

/-- R54, R176: byte `k` of the header, `k < 8`. -/
def State.headerByte (s : State) (k : Nat) : Byte :=
  match k with
  | 0 => s.cfg.opc0
  | 1 => s.cfg.opc1
  | 2 => s.cfg.opc2
  | 3 => s.scale
  | 4 => lowByte s.tmp.x16
  | 5 => highByte s.tmp.x16
  | 6 => lowByte (rowField s.height.toNat)
  | _ => highByte (rowField s.height.toNat)

/-- R176: write header byte `k`. -/
def headerStep (k : Nat) (s : State) : State :=
  let s' := s.setTmp (headerTemps s)
  s'.putFrame k (s'.headerByte k)

/-- R177: write packed byte `k`, at frame offset `8 + k`. -/
def bitmapStep (k : Nat) (s : State) : State := s.putFrame (8 + k) (s.packedByte k)

/-- R177: the end of `ENC`. -/
def State.finishEncode (s : State) : State := (s.setFramelen (8 + s.packedBytes)).complete

/-- R177: the header, then every packed byte. -/
def runEnc (s : State) : State := (loop bitmapStep s.packedBytes 0 (loop headerStep 8 0 s)).finishEncode

/-- R175, R177: `ENC`. -/
def execEnc (s : State) : Host.Outcome State Fault Refusal := s.launch s.encoderCheck runEnc

end Sys2Proof.Machine
end

