-- ==== Sys2Proof/Machine/Luminance.lean ====
section
/-! DEFINITION. luminance_weighting (spec/40_luminance_weighting.md): the tables, the weighted luminance, the average test
of threshold mode, and one pixel of the luminance pass. -/

namespace Sys2Proof.Machine

/-- R110: the red table, in thousandths. A constant: "no command and no host access can write them" (R31). -/
def lumR (i : Byte) : Nat := 299 * i.toNat

/-- R110: the green table, in thousandths. -/
def lumG (i : Byte) : Nat := 587 * i.toNat

/-- R110: the blue table, in thousandths. -/
def lumB (i : Byte) : Nat := 114 * i.toNat

/-- R111: `LUM(R, G, B)`, in exact arithmetic. -/
def lum (r g b : Byte) : Nat := (lumR r + lumG g + lumB b) / 1000

/-- R113: `AVG3GE(R, G, B, c)`, decided without a division. -/
def avg3ge (r g b c : Byte) : Bool := decide (r.toNat + g.toNat + b.toNat ≥ 3 * c.toNat)

/-- R115: pixel `p` of `LUMW`, pass 1 of `RED.D`. -/
def lumPixel (p : Nat) (s : State) : State :=
  s.putWork (4 * p) (lum (s.redSample p) (s.greenSample p) (s.blueSample p))

end Sys2Proof.Machine
end

