-- ==== Sys2Proof/Machine/Reducer.lean ====
section
/-! DEFINITION. threshold_or_diffusion (spec/41_threshold_or_diffusion.md): the commands `RED.T` and `RED.D`. -/

namespace Sys2Proof.Machine

/-- R132: `THR1(R, G, B, c)`; equality gives 0. -/
def thr1 (r g b c : Byte) : Byte := if avg3ge r g b c then 0 else 255

/-- R131: pixel `p` of `RED.T`. -/
def thresholdPixel (p : Nat) (s : State) : State :=
  s.putRed p (thr1 (s.redSample p) (s.greenSample p) (s.blueSample p) s.contrast)

/-- R134: quantisation, a signed comparison with the zero-extended `CONTRAST`; equality gives 255. -/
def quantise (v : Int) (c : Byte) : Byte := if v < (c.toNat : Int) then 0 else 255

/-- R135: `error = floor_div(v - newPixel, 8)`. -/
def diffusionError (v : Int) (newPixel : Byte) : Int := floorDiv (v - (newPixel.toNat : Int)) 8

/-- R137: one tap from offset `j`. The target is bounded by `n` only; the addition is exact. -/
def applyTap (j : Nat) (s : State) (d : Nat) : State :=
  let t := j + d
  let s' := s.setTmp { s.tmp with t := t }
  if t < s.tmp.n then s'.putWork t (s'.workAt t + s.tmp.error) else s'

/-- R133, R134, R135: the temporaries of pixel `p` of pass 2, from the slot read when `p` is visited. -/
def quantiseTemps (p : Nat) (s : State) : Temps :=
  let v := s.workAt (4 * p)
  let newPixel := quantise v s.contrast
  { s.tmp with n := 4 * s.pixels, v := v, newPixel := newPixel, error := diffusionError v newPixel }

/-- R133: pixel `p` of pass 2 of `RED.D`: quantise, write the entry, then the six taps (R136) one after the other. -/
def diffusePixel (p : Nat) (s : State) : State :=
  let s' := s.setTmp (quantiseTemps p s)
  (tapOffsets s'.width.toNat).foldl (applyTap (4 * p)) (s'.putRed p s'.tmp.newPixel)

/-- R141: the end of a reducer command. -/
def State.finishReduce (s : State) : State := (s.setRedlen s.pixels).complete

/-- R131: all pixels of `RED.T`. -/
def runRedT (s : State) : State := (loop thresholdPixel s.pixels 0 s).finishReduce

/-- R115: pass 1 of `RED.D`. -/
def luminancePass (s : State) : State := loop lumPixel s.pixels 0 s

/-- R133: both passes of `RED.D`; "pass 1 is complete before pass 2 starts". -/
def runRedD (s : State) : State := (loop diffusePixel s.pixels 0 (luminancePass s)).finishReduce

/-- R130, R131: `RED.T`. -/
def execRedT (s : State) : Host.Outcome State Fault Refusal := s.launch s.reducerCheck runRedT

/-- R130, R133: `RED.D`. -/
def execRedD (s : State) : Host.Outcome State Fault Refusal := s.launch s.reducerCheck runRedD

end Sys2Proof.Machine
end

