-- ==== Sys2Proof/Machine/Dispatch.lean ====
section
/-! DEFINITION. One arm per command: what a launch of it does, taken as one atomic step (spec/20_memory.md R62). -/

namespace Sys2Proof.Machine

def exec (i : Instr) (s : State) : Host.Outcome State Fault Refusal :=
  match i with
  | .redT => Sys2Proof.Machine.execRedT s
  | .redD => Sys2Proof.Machine.execRedD s
  | .enc => Sys2Proof.Machine.execEnc s

end Sys2Proof.Machine
end

