-- ==== Sys2Proof/WellFormed.lean ====
section
/-! DEFINITION. Format C, the only command format (spec/30_encoding.md R80), as fields, and which values of the fields
are a command. An `Instr` has no operand, so what can be ill formed is the fields of a command byte. -/

namespace Sys2Proof

/-- R80: the fields of a command byte, `zero` in bits 7:2, `unit` in bit 1, `dither` in bit 0. -/
structure FormatC where
  zero : BitVec 6
  unit : Bool
  dither : Bool
  deriving DecidableEq, Repr

/-- R80: "`zero` must be 000000"; "for the encoder: `dither` must be 0". -/
def FormatC.wellFormed (f : FormatC) : Bool := f.zero == 0 && !(f.unit && f.dither)

/-- R81, R87: the fields each command is written with. -/
def Instr.fields : Instr → FormatC
  | .redT => { zero := 0, unit := false, dither := false }
  | .redD => { zero := 0, unit := false, dither := true }
  | .enc => { zero := 0, unit := true, dither := false }

/-- A command is well formed when its format C fields are. -/
def Instr.wellFormed (i : Instr) : Bool := i.fields.wellFormed

end Sys2Proof
end

