-- ==== Sys2Proof/Decode.lean ====
section
/-! DEFINITION. Decoding and encoding of command bytes (spec/30_encoding.md R80 to R82). -/

namespace Sys2Proof

/-- Why bytes are no command. R82 names the two kinds of reserved byte; launching one faults `CV_CMD`. -/
inductive DecodeError where
  /-- There is no byte to decode. -/
  | noByte
  /-- R82: 0x03, "encoder with dither = 1". -/
  | encoderDither (b : Byte)
  /-- R82: 0x04 to 0xFF, "non-zero zero field". -/
  | zeroField (b : Byte)
  deriving DecidableEq, Repr

/-- R81: "A decoder compares the whole byte." The command of the first byte, and the bytes after it. -/
def decode : List Byte → Except DecodeError (Instr × List Byte)
  | [] => .error .noByte
  | b :: rest =>
    if b = 0x00#8 then .ok (.redT, rest)
    else if b = 0x01#8 then .ok (.redD, rest)
    else if b = 0x02#8 then .ok (.enc, rest)
    else if b = 0x03#8 then .error (.encoderDither b)
    else .error (.zeroField b)

/-- The command of a single command byte, or none where the byte is reserved (R82). -/
def decodeByte (b : Byte) : Option Instr :=
  match decode [b] with
  | .ok (i, _) => some i
  | .error _ => none

/-- R80: the command byte as its three fields, `zero` highest. -/
def FormatC.byte (f : FormatC) : Byte := f.zero ++ BitVec.ofBool f.unit ++ BitVec.ofBool f.dither

/-- R80, R81: the bytes of a command, one each. -/
def encode (i : Instr) : List Byte := [i.fields.byte]

/-- The first `count` bytes of a number whose bits the opcode table numbers from 0, lowest byte first. -/
def layBytes : Nat → Nat → List Byte
  | 0, _ => []
  | count + 1, w => BitVec.ofNat 8 w :: layBytes count (w / 256)

/-- The bytes of a table word of `nbits` bits, the bits above them 0. -/
def tableBytes (nbits w : Nat) : List Byte := layBytes ((nbits + 7) / 8) (w % 2 ^ nbits)

/-- The instruction the decoder reads from a word numbered as spec/opcode_table.json numbers it. -/
def decodeTableWord (nbits w : Nat) : Option Instr :=
  match decode (tableBytes nbits w) with
  | .ok (i, _) => some i
  | .error _ => none

end Sys2Proof
end

