-- ==== Sys2Proof/Machine/Sequencer.lean ====
section
/-! DEFINITION. The commands as small steps (spec/00_scope.md R10, spec/70_reset_and_hazards.md R238): a launch that leaves
`STATUS` at `BUSY` and the scan counter (spec/10_state.md R26) at the first item, and one step per pixel or per byte. -/

namespace Sys2Proof.Machine

/-- R202: the launch check of each command. -/
def State.launchCheck (s : State) : Instr → Option LaunchFault
  | .redT => s.reducerCheck
  | .redD => s.reducerCheck
  | .enc => s.encoderCheck

/-- R26: the counter at the start of each command. -/
def firstScan : Instr → Scan
  | .redT => .threshold 0
  | .redD => .luminance 0
  | .enc => .header 0

/-- R130, R175, R238: the launch as a small step; "a fault ends the command before the first such step". -/
def State.startCommand (s : State) (i : Instr) : State :=
  match s.launchCheck i with
  | some cause => s.begin.raise cause
  | none => s.begin.setScan (firstScan i)

/-- R26, R238: one small step of the command that is running; the last one of a command completes it. -/
def tick (s : State) : State :=
  match s.scan with
  | .idle => s
  | .threshold p =>
    let s' := thresholdPixel p s
    if p + 1 < s.pixels then s'.setScan (.threshold (p + 1)) else s'.finishReduce
  | .luminance p =>
    let s' := lumPixel p s
    if p + 1 < s.pixels then s'.setScan (.luminance (p + 1)) else s'.setScan (.diffusion 0)
  | .diffusion p =>
    let s' := diffusePixel p s
    if p + 1 < s.pixels then s'.setScan (.diffusion (p + 1)) else s'.finishReduce
  | .header k =>
    let s' := headerStep k s
    if k + 1 < 8 then s'.setScan (.header (k + 1)) else s'.setScan (.bitmap 0)
  | .bitmap k =>
    let s' := bitmapStep k s
    if k + 1 < s.packedBytes then s'.setScan (.bitmap (k + 1)) else s'.finishEncode

/-- `count` small steps. -/
def ticks : Nat → State → State
  | 0, s => s
  | count + 1, s => ticks count (tick s)

/-- R238: how many small steps a command that passed its launch checks takes. -/
def State.smallSteps (s : State) : Instr → Nat
  | .redT => s.pixels
  | .redD => 2 * s.pixels
  | .enc => 8 + s.packedBytes

/-- The sequencer moves only while `BUSY`; otherwise "the block does nothing until the host writes CMD" (R230). -/
def State.advance (s : State) : State := if s.status = .busy then tick s else s

end Sys2Proof.Machine
end

