-- ==== Sys2Proof/Machine/HostPort.lean ====
section
/-! DEFINITION. The host's side: the register map (spec/20_memory.md R60), access rights (spec/10_state.md R32), the
statements of spec/30_encoding.md R93 and R94, reset (spec/70_reset_and_hazards.md R230), and which move the oldest
pending access makes. -/

namespace Sys2Proof.Machine

/-- R60: what a read of register `r` returns. `CMD` reads 0 (R23); numbers 9 and above read 0. -/
def State.readReg (s : State) (r : Nat) : Nat :=
  match r with
  | 1 => s.status.byte.toNat
  | 2 => s.width.toNat
  | 3 => s.height.toNat
  | 4 => s.contrast.toNat
  | 5 => s.scale.toNat
  | 6 => s.pixlen
  | 7 => s.redlen
  | 8 => s.framelen
  | _ => 0

/-- R60: a write of register `r` other than `CMD`, at the register's width (log 8). `STATUS`, `FRAMELEN` and the numbers
9 and above ignore it. -/
def State.writeReg (s : State) (r : Nat) (v : Nat) : State :=
  match r with
  | 2 => s.setWidth (BitVec.ofNat 32 v)
  | 3 => s.setHeight (BitVec.ofNat 32 v)
  | 4 => s.setContrast (BitVec.ofNat 8 v)
  | 5 => s.setScale (BitVec.ofNat 8 v)
  | 6 => s.setPixlen (v % 2 ^ lenw s.cfg)
  | 7 => s.setRedlen (v % 2 ^ lenw s.cfg)
  | _ => s

/-- R32: a host write of an element that exists; `FRAME` ignores it. -/
def State.hostStore (s : State) (b : Buffer) (k : Nat) (v : Byte) : State :=
  match b with
  | .pix => s.putPix k v
  | .red => s.putRed k v
  | .frame => s

/-- R230: reset. Registers and `STATUS` as R34 says, a running command abandoned, every buffer element unspecified again. The
host is not reset: what it still has to do and what it last heard stay. It no longer awaits the abandoned command (log 13). -/
def State.restart (s : State) : State :=
  ((State.resetOf s.cfg s.serial (s.epoch + 1)).setHost s.host).setHeard s.heard

/-- R32, R234: what the host may do while `BUSY`: read `STATUS`, or nothing; and the reset is no access. -/
def HostOp.allowedWhileBusy : HostOp → Bool
  | .read r => r == 1
  | .wait => true
  | .whenDone _ => true
  | .pause => true
  | .reset => true
  | .write _ _ => false
  | .store _ _ _ => false
  | .load _ _ => false
  | .start _ => false

/-- R234: the host may make any access: the block is not `BUSY`, and since its latest write to `CMD` the host has read so. -/
abbrev State.HostFree (s : State) : Prop := s.status ≠ .busy ∧ s.awaits = false

/-- R32, R234: what the host may do after `BUSY` has ended and before it has read so: all but what R234 names, which is a write of a
register or a buffer (`CMD` among the registers) and a read of a buffer or a length register. Reads of `CMD`, `STATUS` and
the operand registers are R32's, and the reserved numbers, which are no registers, R60's. -/
def HostOp.allowedBeforePoll : HostOp → Bool
  | .read r => !(r == 6 || r == 7 || r == 8)
  | .write r _ => decide (9 ≤ r)
  | .wait => true
  | .whenDone _ => true
  | .pause => true
  | .reset => true
  | .store _ _ _ => false
  | .load _ _ => false
  | .start _ => false

/-- R32, R212, R234: why an access of the host has no meaning in this state, if it has none. While `BUSY` the host may only read
`STATUS`, and from then on R234's rule holds until it has read a `STATUS` that is not `BUSY` (log 13). -/
def State.hostRefusal (s : State) (op : HostOp) : Option Refusal :=
  if op.allowedWhileBusy then none
  else if s.status = .busy then some (.hostWhileBusy op)
  else if s.awaits && !op.allowedBeforePoll then some (.hostBeforePoll op)
  else none

/-- R24, R234: the host reads `STATUS`; once it has read one that is not `BUSY` it no longer awaits its command. -/
def State.readStatus (s : State) : State :=
  (s.setHeard (some (s.readReg 1))).setAwaits (s.awaits && decide (s.status = .busy))

/-- A move of the machine: launch a command, or settle at once. -/
inductive Move where
  | run (i : Instr) (s : State)
  | settle (o : Host.Outcome State Fault Refusal)

/-- R23, R81, R82: a write of byte `v` to `CMD`. A reserved byte faults `CV_CMD`. From here on the host awaits the outcome (R234). -/
def State.command (s : State) (v : Byte) : Move :=
  match decodeByte v with
  | some i => .run i (s.setAwaits true)
  | none => .settle (.next ((s.setAwaits true).begin.raise .cvCmd))

/-- R10: the same launch, to be followed by small steps. -/
def State.start (s : State) (v : Byte) : State :=
  match decodeByte v with
  | some i => (s.setAwaits true).startCommand i
  | none => (s.setAwaits true).begin.raise .cvCmd

/-- R93: one poll of `WAIT`. It reads `STATUS`; while the state is not `DONE` or `FAULT` it stays the host's next statement. -/
def State.poll (s : State) : State :=
  let s' := s.readStatus
  match s.status with
  | .done => s'
  | .fault _ => s'
  | .idle => s'.setHost (.wait :: s.host)
  | .busy => (s'.setHost (.wait :: s.host)).advance

/-- R94: `if STATUS.state = DONE then` the next `n` statements. -/
def State.branchDone (s : State) (n : Nat) : State :=
  let s' := s.readStatus
  if s.status = .done then s' else s'.setHost (s.host.drop n)

/-- The move of one host operation, in the state from whose list it has been taken. -/
def HostOp.move (op : HostOp) (s : State) : Move :=
  match op with
  | .write r v => if r = 0 then s.command (BitVec.ofNat 8 v) else .settle (.next (s.writeReg r v))
  | .read r => .settle (.next (if r = 1 then s.readStatus else s.setHeard (some (s.readReg r))))
  | .store b k v =>
    if k < bufferSize s.cfg b then .settle (.next (s.hostStore b k v)) else .settle (.fault (.noSuchElement b k))
  | .load b k =>
    if k < bufferSize s.cfg b then .settle (.next (s.setHeard (some (s.byteAt b k).toNat)))
    else .settle (.fault (.noSuchElement b k))
  | .start v => .settle (.next (s.start v))
  | .wait => .settle (.next s.poll)
  | .whenDone n => .settle (.next (s.branchDone n))
  | .pause => .settle (.next s.advance)
  | .reset => .settle (.next s.restart)

/-- The machine's next move: the host's oldest pending access, or, when it has none, the sequencer's. A launch by `write 0` is
over in one step, which R62 grants to a host that keeps R234's rule; one that does not is refused (log 13). -/
def State.nextMove (s : State) : Move :=
  match s.host with
  | [] => .settle (.next s.advance)
  | op :: rest =>
    match s.hostRefusal op with
    | some reason => .settle (.refused reason)
    | none => op.move (s.setHost rest)

/-- R93: `PIX <- [ ... ]`: "load the buffer from offset 0, and PIXLEN <- its length". -/
def loadPix (bytes : List Byte) : List HostOp :=
  (bytes.zipIdx.map fun x => HostOp.store .pix x.2 x.1) ++ [.write 6 bytes.length]

/-- R93: `RED <- [ ... ]`: "load the buffer from index 0, and REDLEN <- its length". -/
def loadRed (bytes : List Byte) : List HostOp :=
  (bytes.zipIdx.map fun x => HostOp.store .red x.2 x.1) ++ [.write 7 bytes.length]

/-- R93: the statement that launches a command: its byte written to `CMD`. -/
def commandStatement (i : Instr) : HostOp := .write 0 i.fields.byte.toNat

/-- R94: `CVT.T = RED.T ; WAIT ; if STATUS.state = DONE then ( ENC ; WAIT )`. -/
def cvtT : List HostOp := [commandStatement .redT, .wait, .whenDone 2, commandStatement .enc, .wait]

/-- R94: `CVT.D = RED.D ; WAIT ; if STATUS.state = DONE then ( ENC ; WAIT )`. -/
def cvtD : List HostOp := [commandStatement .redD, .wait, .whenDone 2, commandStatement .enc, .wait]

/-- A state in which the host's next access writes byte `v` to `CMD` and the block accepts it: R23 wants it not `BUSY`, so a
running command is ended first, and no earlier command is awaited (logs 4, 13). -/
def State.withCommand (s : State) (v : Byte) : State :=
  let s' := if s.status = .busy then ((s.setStatus .idle).setScan .idle).setTmp Temps.dead else s
  (s'.setAwaits false).setHost (.write 0 v.toNat :: s.host)

end Sys2Proof.Machine
end

