-- ==== Sys2Proof/Machine/Step.lean ====
section
/-! DEFINITION. One step of an instance and its host: the next move, a launch taken through `exec`. -/

namespace Sys2Proof.Machine

/-- What a move answers: a launch is taken through `exec`. -/
def Move.outcome : Move → Host.Outcome State Fault Refusal
  | .run i s => exec i s
  | .settle o => o

/-- One step. -/
def step (s : State) : Host.Outcome State Fault Refusal := s.nextMove.outcome

/-- `s` with the instruction of a table word as the host's next write to `CMD`, which the very next step performs. A command
is one byte (R80), the table word's first. -/
def State.withFetchWord (s : State) (nbits w : Nat) : State :=
  s.withCommand (BitVec.ofNat 8 (w % 2 ^ nbits))

end Sys2Proof.Machine
end

