-- ==== Sys2Proof/Machine/Instances.lean ====
section
/-! DEFINITION. Several instances (spec/20_memory.md R67, spec/60_exceptions.md R211): each its own State; one of them steps,
and "they share nothing but (optionally) the read-only tables". -/

namespace Sys2Proof.Machine

/-- One step of instance `k` of a system; which one steps is given from outside (log 12). Distinct instances of a system carry distinct
`serial` numbers (log 14). A system without that instance does not change. -/
def stepInstance (system : List State) (k : Nat) : Host.Outcome (List State) Fault Refusal :=
  match system[k]? with
  | none => .next system
  | some s =>
    match step s with
    | .next t => .next (system.set k t)
    | .fault r => .fault r
    | .refused r => .refused r

end Sys2Proof.Machine
end

