-- ==== Sys2Proof/Safety.lean ====
section
/-! DEFINITION. The terms claims are stated in: when a command passes its launch checks (spec/60_exceptions.md R201, R202),
the invariant of one instance, what pass 2 of `RED.D` reads, and which parts of two states agree. -/

namespace Sys2Proof.Machine

/-- R232: what `RED.T` and `RED.D` need of the registers, exactly the negation of every cause R201 gives them. -/
abbrev State.ReducerReady (s : State) : Prop :=
  s.width ≠ 0 ∧ s.height ≠ 0 ∧ s.width.toNat * s.height.toNat ≤ s.cfg.maxPixels
    ∧ s.pixlen = 4 * (s.width.toNat * s.height.toNat)

/-- R233: what `ENC` needs of the registers, exactly the negation of every cause R201 gives it. -/
abbrev State.EncoderReady (s : State) : Prop :=
  s.width ≠ 0 ∧ s.height ≠ 0 ∧ s.scale.toNat ≤ 3 ∧ s.width.toNat * s.height.toNat ≤ s.cfg.maxPixels
    ∧ s.redlen = s.width.toNat * s.height.toNat

/-- What each command needs of the registers. -/
def State.Ready (s : State) : Instr → Prop
  | .redT => s.ReducerReady
  | .redD => s.ReducerReady
  | .enc => s.EncoderReady

/-- R24, R26: the scan counter runs exactly while `BUSY`, inside its pass, with the launch checks passed; pass 2 finds every
slot it reads already written (R28); between commands the temporaries are dead (R25). -/
def State.ScanLegal (s : State) : Prop :=
  match s.scan with
  | .idle => s.status ≠ .busy ∧ s.tmp = Temps.dead
  | .threshold p => s.status = .busy ∧ s.ReducerReady ∧ p < s.pixels
  | .luminance p =>
    s.status = .busy ∧ s.ReducerReady ∧ p < s.pixels ∧ ∀ q < p, (Memory.get? s.work (4 * q)).isSome = true
  | .diffusion p =>
    s.status = .busy ∧ s.ReducerReady ∧ p < s.pixels ∧ ∀ q < s.pixels, (Memory.get? s.work (4 * q)).isSome = true
  | .header k => s.status = .busy ∧ s.EncoderReady ∧ k < 8
  | .bitmap k => s.status = .busy ∧ s.EncoderReady ∧ k < s.packedBytes

/-- The invariant of an instance. -/
structure State.Inv (s : State) : Prop where
  /-- Every buffer is in its canonical form. -/
  pixCanonical : Memory.wf s.pix = true
  workCanonical : Memory.wf s.work = true
  redCanonical : Memory.wf s.red = true
  frameCanonical : Memory.wf s.frame = true
  /-- R50: no element outside its buffer is ever written. -/
  pixWithin : Memory.within s.pix (4 * s.cfg.maxPixels) = true
  workWithin : Memory.within s.work (4 * s.cfg.maxPixels) = true
  redWithin : Memory.within s.red s.cfg.maxPixels = true
  frameWithin : Memory.within s.frame (8 + ceilDiv s.cfg.maxPixels 8) = true
  /-- R28: only slots at offsets that are multiples of 4 are written. -/
  workAligned : ∀ c ∈ s.work, c.1 % 4 = 0
  /-- R22: the length registers hold `LENW` bits. -/
  pixlenFits : s.pixlen < 2 ^ lenw s.cfg
  redlenFits : s.redlen < 2 ^ lenw s.cfg
  framelenFits : s.framelen < 2 ^ lenw s.cfg
  /-- R30: a frame fits in its buffer. -/
  frameFits : s.framelen ≤ 8 + ceilDiv s.cfg.maxPixels 8
  /-- R234: while `BUSY`, the host awaits the command. -/
  busyAwaited : s.status = .busy → s.awaits = true
  scanLegal : s.ScanLegal

/-- A state of pass 2 of `RED.D` launched in `s`: pass 1 done and pixels `0 .. p-1` visited (R133). -/
def State.pass2 (s : State) (p : Nat) : State := loop diffusePixel p 0 (luminancePass s.begin)

/-- R134: the value `v` that pass 2 of `RED.D` launched in `s` reads when it visits pixel `p`. -/
def State.visited (s : State) (p : Nat) : Int := (s.pass2 p).workAt (4 * p)

/-- R21: the operand registers agree. -/
abbrev SameOperands (s t : State) : Prop :=
  t.width = s.width ∧ t.height = s.height ∧ t.contrast = s.contrast ∧ t.scale = s.scale

/-- R83, R114: two states agree on all that the reducer commands may depend on: the parameters, `WIDTH`, `HEIGHT`,
`CONTRAST`, `PIXLEN` and the red, green and blue samples of the `WIDTH*HEIGHT` pixels; alpha may differ. -/
def SameReducerInput (s t : State) : Prop :=
  t.cfg = s.cfg ∧ t.width = s.width ∧ t.height = s.height ∧ t.contrast = s.contrast ∧ t.pixlen = s.pixlen ∧
    ∀ k < 4 * s.pixels, k % 4 ≠ 3 → t.pixAt k = s.pixAt k

/-- R180: two states agree on all that `ENC` may depend on: the parameters, `WIDTH`, `HEIGHT`, `SCALE`, `REDLEN` and the
first `REDLEN` entries of `RED`. -/
def SameEncoderInput (s t : State) : Prop :=
  t.cfg = s.cfg ∧ t.width = s.width ∧ t.height = s.height ∧ t.scale = s.scale ∧ t.redlen = s.redlen ∧
    ∀ p < s.redlen, t.redAt p = s.redAt p

end Sys2Proof.Machine
end

