-- ==== Sys2Proof/Certificates/Slice0/Obligations.lean ====
section
/-! DEFINITION. The statements for the provers. Each docstring names the rule of spec/ it states, or the sections it rests
on; what rests on a choice of the model names the log entry (notes/assumptions/<n>.md). -/

open Sys2Proof Sys2Proof.Machine

-- Encoding (spec/30_encoding.md)

/-- R81: the three command codes, each a word written out from the table, and the bytes next to them that are no command. -/
def Obligations.CommandWordsDecode : Prop :=
  decode [0b00000000#8] = .ok (.redT, []) ∧ decode [0b00000001#8] = .ok (.redD, []) ∧
    decode [0b00000010#8] = .ok (.enc, []) ∧ decode [0b00000011#8] = .error (.encoderDither 0b00000011#8) ∧
    decode [0b00000100#8] = .error (.zeroField 0b00000100#8) ∧ decode [0b10000000#8] = .error (.zeroField 0b10000000#8) ∧
    decode [] = .error .noByte

/-- R80, R81: decoding an encoded command gives it back and leaves the bytes after it, and a byte that decodes to a command
is the byte that command is encoded as. -/
def Obligations.DecodeEncodeAgree : Prop :=
  (∀ (i : Instr) (rest : List Byte), decode (encode i ++ rest) = .ok (i, rest)) ∧
    ∀ (b : Byte) (rest : List Byte) (i : Instr), decode (b :: rest) = .ok (i, rest) → encode i = [b]

/-- R80, R82: fields are those of a command exactly when the `zero` field is 0 and not both `unit` and `dither` are set; every
other byte is refused, under the name of the field that is wrong. -/
def Obligations.FormatCFieldsDecide : Prop :=
  ∀ f : FormatC,
    (f.wellFormed = true → ∃ i : Instr, i.fields = f ∧ decode [f.byte] = .ok (i, [])) ∧
      (f.zero ≠ 0 → decode [f.byte] = .error (.zeroField f.byte)) ∧
      (f.zero = 0 → f.unit = true → f.dither = true → decode [f.byte] = .error (.encoderDither f.byte))

-- The step (spec/10_state.md R23, spec/20_memory.md R62)

/-- R23, R62, R238; logs 4, 5, 13: when the host may make any access and its next one writes to `CMD` a byte that decodes to a
command, the step is that command's meaning, with the access taken off the host's list and the host awaiting the outcome; when
that write is to be followed by small steps, the step leaves `STATUS` at `BUSY` and the counter at the command's first item, or,
if the launch fails its checks, is the command's meaning all the same. -/
def Obligations.StepRunsDecodedCommand : Prop :=
  ∀ (s : State) (rest : List HostOp) (i : Instr), s.HostFree →
    (∀ v : Nat, s.host = .write 0 v :: rest → decode [BitVec.ofNat 8 v] = .ok (i, []) →
      step s = exec i ((s.setHost rest).setAwaits true)) ∧
    (∀ v : Byte, s.host = .start v :: rest → decode [v] = .ok (i, []) →
      (s.Ready i → step s = .next { s with
        host := rest, awaits := true, status := .busy
        scan := match i with
          | .redT => .threshold 0
          | .redD => .luminance 0
          | .enc => .header 0 }) ∧
      (¬ s.Ready i → step s = exec i ((s.setHost rest).setAwaits true)))

/-- Logs 4, 13: a state with a table word placed for the next fetch runs exactly that word's command, in the state it was placed
in, with the host awaiting the outcome. -/
def Obligations.FetchWordRuns : Prop :=
  ∀ (s : State) (w : Nat) (i : Instr), s.status ≠ .busy → decodeTableWord 8 w = some i →
    step (s.withFetchWord 8 w) = exec i (s.setAwaits true)

/-- R82, R204: a reserved byte written to `CMD`, whichever way its launch is followed, faults `CV_CMD` and changes nothing of the
block but `STATUS`. That a number above 255 is taken at its low 8 bits is the model's choice (log 8), and so are the host's list
and that it awaits the outcome (logs 4, 13). -/
def Obligations.ReservedByteFaults : Prop :=
  ∀ (s : State) (v : Nat) (rest : List HostOp), s.HostFree →
    s.host = .write 0 v :: rest ∨ s.host = .start (BitVec.ofNat 8 v) :: rest → 2 < v % 256 →
      step s = .next { s with host := rest, awaits := true, status := .fault .cvCmd }

-- Completion and results of the commands

/-- R131: `RED.T`, with its operands ready, completes: every entry is 0 where `R + G + B >= 3*CONTRAST` and 255 elsewhere,
`REDLEN` is the pixel count, and nothing else changes (the counter and the temporaries aside, which live only inside the
command: see `EveryLaunchEnds`). -/
def Obligations.RedTCompletes : Prop :=
  ∀ s : State, s.ReducerReady → ∃ t, exec .redT s = .next t ∧
    t = { s with red := t.red, redlen := s.pixels, status := .done, scan := t.scan, tmp := t.tmp } ∧
    (∀ p < s.pixels, t.redAt p =
      if 3 * s.contrast.toNat ≤ (s.pixAt (4 * p)).toNat + (s.pixAt (4 * p + 1)).toNat + (s.pixAt (4 * p + 2)).toNat
      then 0 else 255) ∧
    ∀ p, s.pixels ≤ p → t.redAt p = s.redAt p

/-- R133: `RED.D`, with its operands ready, completes, and its entries are those of the one pair of sequences `v`, `error` in
which `v` at a pixel is its luminance plus, for every earlier pixel and every one of the six offsets that leads from it to
this one, that pixel's error. Nothing else changes but the hidden `WORK` (and the counter and temporaries). -/
def Obligations.RedDCompletes : Prop :=
  ∀ s : State, s.ReducerReady → ∃ t, exec .redD s = .next t ∧
    t = { s with
      work := t.work, red := t.red, redlen := s.pixels, status := .done, scan := t.scan, tmp := t.tmp } ∧
    (∃ v error : Nat → Int, ∀ p < s.pixels,
      v p = (299 * ((s.pixAt (4 * p)).toNat : Int) + 587 * ((s.pixAt (4 * p + 1)).toNat : Int)
          + 114 * ((s.pixAt (4 * p + 2)).toNat : Int)) / 1000
        + ((List.range p).map fun q =>
            (([4, 8, 4 * s.width.toNat - 4, 4 * s.width.toNat, 4 * s.width.toNat + 4, 8 * s.width.toNat]).map
              fun d => if 4 * q + d = 4 * p then error q else 0).sum).sum ∧
      t.redAt p = (if v p < (s.contrast.toNat : Int) then 0 else 255) ∧
      error p = (v p - ((t.redAt p).toNat : Int)) / 8) ∧
    ∀ p, s.pixels ≤ p → t.redAt p = s.redAt p

/-- R177, R176, R160: `ENC`, with its operands ready, completes: the eight header bytes, then `ceil_div(WIDTH*HEIGHT, 8)`
packed bytes, the first entry of a group in the highest bit, an entry beyond the array as 0; nothing else changes (the counter
and temporaries aside). -/
def Obligations.EncCompletes : Prop :=
  ∀ s : State, s.EncoderReady → ∃ t, exec .enc s = .next t ∧
    t = { s with
      frame := t.frame, framelen := 8 + (s.pixels + 7) / 8, status := .done, scan := t.scan, tmp := t.tmp } ∧
    t.frameAt 0 = s.cfg.opc0 ∧ t.frameAt 1 = s.cfg.opc1 ∧ t.frameAt 2 = s.cfg.opc2 ∧ t.frameAt 3 = s.scale ∧
    (t.frameAt 4).toNat = (2 * ((s.width.toNat + 7) / 8)) % 65536 % 256 ∧
    (t.frameAt 5).toNat = (2 * ((s.width.toNat + 7) / 8)) % 65536 / 256 ∧
    (t.frameAt 6).toNat = s.height.toNat % 65536 % 256 ∧
    (t.frameAt 7).toNat = s.height.toNat % 65536 / 256 ∧
    (∀ k < (s.pixels + 7) / 8, (t.frameAt (8 + k)).toNat =
      ((List.range 8).map fun j => if 8 * k + j < s.pixels ∧ s.redAt (8 * k + j) ≠ 0 then 2 ^ (7 - j) else 0).sum) ∧
    ∀ k, t.framelen ≤ k → t.frameAt k = s.frameAt k

/-- R202, R239: every launch ends, in every state, with `DONE` exactly when the operands are ready and with `FAULT` otherwise;
no launch stops the machine. A completed launch leaves the counter idle and the temporaries cleared, the model's choice for
R25's "none survives the command" (log 10). -/
def Obligations.EveryLaunchEnds : Prop :=
  ∀ (i : Instr) (s : State), ∃ t, exec i s = .next t ∧
    (s.Ready i → t.status = .done ∧ t.scan = .idle ∧ t.tmp = Temps.dead) ∧
    (¬ s.Ready i → ∃ c, t.status = .fault c)

-- Launch faults (spec/60_exceptions.md)

/-- R130, R201, R203: the launch faults of `RED.T` and `RED.D`, lowest code first, products exact; each changes `STATUS`
alone. -/
def Obligations.ReducerLaunchFaults : Prop :=
  ∀ (i : Instr) (s : State), i = .redT ∨ i = .redD →
    (s.width = 0 ∨ s.height = 0 → exec i s = .next { s with status := .fault .cvDim }) ∧
    (s.width ≠ 0 → s.height ≠ 0 → s.cfg.maxPixels < s.width.toNat * s.height.toNat →
      exec i s = .next { s with status := .fault .resource }) ∧
    (s.width ≠ 0 → s.height ≠ 0 → s.width.toNat * s.height.toNat ≤ s.cfg.maxPixels →
      s.pixlen ≠ 4 * (s.width.toNat * s.height.toNat) → exec i s = .next { s with status := .fault .cvLen })

/-- R175, R201, R203: the launch faults of `ENC`, lowest code first, products exact; each changes `STATUS` alone. -/
def Obligations.EncoderLaunchFaults : Prop :=
  ∀ s : State,
    (s.width = 0 ∨ s.height = 0 → exec .enc s = .next { s with status := .fault .cvDim }) ∧
    (s.width ≠ 0 → s.height ≠ 0 → 3 < s.scale.toNat → exec .enc s = .next { s with status := .fault .cvScale }) ∧
    (s.width ≠ 0 → s.height ≠ 0 → s.scale.toNat ≤ 3 → s.cfg.maxPixels < s.width.toNat * s.height.toNat →
      exec .enc s = .next { s with status := .fault .resource }) ∧
    (s.width ≠ 0 → s.height ≠ 0 → s.scale.toNat ≤ 3 → s.width.toNat * s.height.toNat ≤ s.cfg.maxPixels →
      s.redlen ≠ s.width.toNat * s.height.toNat → exec .enc s = .next { s with status := .fault .cvLen })

/-- R204: a command that faults has changed `STATUS` and nothing else, whichever command and cause. -/
def Obligations.FaultChangesOnlyStatus : Prop :=
  ∀ (i : Instr) (s t : State) (c : LaunchFault), exec i s = .next t → t.status = .fault c →
    t = { s with status := .fault c }

/-- R24, R206: no command reads `STATUS`, so a launch from `IDLE`, `DONE` or `FAULT` does the same. -/
def Obligations.CommandsIgnoreStatus : Prop :=
  ∀ (i : Instr) (s : State) (st : Status), exec i (s.setStatus st) = exec i s

-- Frames: what a command leaves unchanged whenever it answers a next state (R83)

/-- R83, R131, R205: a completed `RED.T` changes `RED` below the pixel count, `REDLEN` and `STATUS`, and no other register or
element; a faulted one leaves `RED` and `REDLEN` too. -/
def Obligations.RedTFrame : Prop :=
  ∀ s t : State, exec .redT s = .next t →
    SameOperands s t ∧ t.cfg = s.cfg ∧ t.pixlen = s.pixlen ∧ t.framelen = s.framelen ∧ t.epoch = s.epoch ∧ t.serial = s.serial ∧
    t.host = s.host ∧ t.heard = s.heard ∧ t.awaits = s.awaits ∧
    (∀ k, t.pixAt k = s.pixAt k) ∧ (∀ k, t.frameAt k = s.frameAt k) ∧ (∀ k, t.workAt k = s.workAt k) ∧
    (∀ p, s.pixels ≤ p → t.redAt p = s.redAt p) ∧ (t.status ≠ .done → ∀ p, t.redAt p = s.redAt p) ∧
    (t.status = .done → t.redlen = s.pixels) ∧ (t.status ≠ .done → t.redlen = s.redlen)

/-- R83, R133, R52, R205: `RED.D` changes the same as `RED.T`, and the `WORK` slots at multiples of 4 below `4*WIDTH*HEIGHT`. That
the other slots read as before is the pseudocode's: the spec promises nothing of the final `WORK` (R239, log 9). -/
def Obligations.RedDFrame : Prop :=
  ∀ s t : State, exec .redD s = .next t →
    SameOperands s t ∧ t.cfg = s.cfg ∧ t.pixlen = s.pixlen ∧ t.framelen = s.framelen ∧ t.epoch = s.epoch ∧ t.serial = s.serial ∧
    t.host = s.host ∧ t.heard = s.heard ∧ t.awaits = s.awaits ∧
    (∀ k, t.pixAt k = s.pixAt k) ∧ (∀ k, t.frameAt k = s.frameAt k) ∧
    (∀ k, 4 * s.pixels ≤ k ∨ k % 4 ≠ 0 → t.workAt k = s.workAt k) ∧
    (∀ p, s.pixels ≤ p → t.redAt p = s.redAt p) ∧ (t.status ≠ .done → ∀ p, t.redAt p = s.redAt p) ∧
    (t.status = .done → t.redlen = s.pixels) ∧ (t.status ≠ .done → t.redlen = s.redlen)

/-- R83, R177, R205: a completed `ENC` changes `FRAME` below the new `FRAMELEN`, `FRAMELEN` and `STATUS`, and no other register or
element; a faulted one leaves `FRAME` and `FRAMELEN` too. -/
def Obligations.EncFrame : Prop :=
  ∀ s t : State, exec .enc s = .next t →
    SameOperands s t ∧ t.cfg = s.cfg ∧ t.pixlen = s.pixlen ∧ t.redlen = s.redlen ∧ t.epoch = s.epoch ∧ t.serial = s.serial ∧
    t.host = s.host ∧ t.heard = s.heard ∧ t.awaits = s.awaits ∧
    (∀ k, t.pixAt k = s.pixAt k) ∧ (∀ p, t.redAt p = s.redAt p) ∧ (∀ k, t.workAt k = s.workAt k) ∧
    (∀ k, 8 + ceilDiv s.pixels 8 ≤ k → t.frameAt k = s.frameAt k) ∧
    (t.status ≠ .done → ∀ k, t.frameAt k = s.frameAt k) ∧
    (t.status = .done → t.framelen = 8 + ceilDiv s.pixels 8) ∧ (t.status ≠ .done → t.framelen = s.framelen)

-- Purity (R33, R142, R180)

/-- R33, R114, R142: `RED.T` is a function of `WIDTH`, `HEIGHT`, `CONTRAST`, `PIXLEN` and the colour samples; alpha, `WORK`,
old results and `SCALE` do not enter. -/
def Obligations.RedTPure : Prop :=
  ∀ s s' t t' : State, SameReducerInput s s' → exec .redT s = .next t → exec .redT s' = .next t' →
    t'.status = t.status ∧
      (t.status = .done → t'.redlen = t.redlen ∧ ∀ p < t.redlen, t'.redAt p = t.redAt p)

/-- R28, R33, R114, R142: the same for `RED.D`: in particular no result depends on what `WORK` held at launch. -/
def Obligations.RedDPure : Prop :=
  ∀ s s' t t' : State, SameReducerInput s s' → exec .redD s = .next t → exec .redD s' = .next t' →
    t'.status = t.status ∧
      (t.status = .done → t'.redlen = t.redlen ∧ ∀ p < t.redlen, t'.redAt p = t.redAt p)

/-- R180: `ENC` is a function of `WIDTH`, `HEIGHT`, `SCALE`, `REDLEN`, the entries below `REDLEN` and `RASTER_OPCODE`. -/
def Obligations.EncPure : Prop :=
  ∀ s s' t t' : State, SameEncoderInput s s' → exec .enc s = .next t → exec .enc s' = .next t' →
    t'.status = t.status ∧
      (t.status = .done → t'.framelen = t.framelen ∧ ∀ k < t.framelen, t'.frameAt k = t.frameAt k)

/-- R179: the byte at offset 3 is `SCALE`, and `SCALE` influences no other byte nor the length. -/
def Obligations.ScalePassthrough : Prop :=
  ∀ (s t t' : State) (c : Byte), exec .enc s = .next t → t.status = .done →
    exec .enc (s.setScale c) = .next t' → t'.status = .done →
      t.frameAt 3 = s.scale ∧ t'.frameAt 3 = c ∧ t'.framelen = t.framelen ∧
        ∀ k < t.framelen, k ≠ 3 → t'.frameAt k = t.frameAt k

/-- R161, R236: `WIDTH` does not enter the packing: with `WIDTH` and `HEIGHT` swapped, `ENC` still completes, and the frame
differs at most in the four size bytes of the header. -/
def Obligations.SwappedSizesPackAlike : Prop :=
  ∀ s t : State, exec .enc s = .next t → t.status = .done →
    ∃ t', exec .enc ((s.setWidth s.height).setHeight s.width) = .next t' ∧ t'.status = .done ∧
      t'.framelen = t.framelen ∧ ∀ k < t.framelen, k < 4 ∨ 8 ≤ k → t'.frameAt k = t.frameAt k

-- The frame (spec/42_bit_packer.md, spec/43_frame_formatter.md, spec/30_encoding.md)

/-- R161, R162: after a completed `ENC` bit `7 - (q mod 8)` of packed byte `floor_div(q, 8)` is set exactly when pixel `q`
exists and its entry is non-zero: one flat stream, whatever `WIDTH` is, its unused low bits 0. -/
def Obligations.FlatBitStream : Prop :=
  ∀ s t : State, exec .enc s = .next t → t.status = .done →
    ∀ q < 8 * ceilDiv s.pixels 8,
      (t.frameAt (8 + q / 8)).getLsbD (7 - q % 8) = decide (q < s.pixels ∧ s.redAt q ≠ 0)

/-- R164: an array of zeros packs to zero bytes; an array of non-zero entries to 0xFF, but for the padding of the last byte. -/
def Obligations.UniformArraysPack : Prop :=
  ∀ s t : State, exec .enc s = .next t → t.status = .done →
    ((∀ p < s.pixels, s.redAt p = 0) → ∀ k < ceilDiv s.pixels 8, t.frameAt (8 + k) = 0) ∧
    ((∀ p < s.pixels, s.redAt p ≠ 0) →
      (∀ k < s.pixels / 8, t.frameAt (8 + k) = 0xFF) ∧
      (s.pixels % 8 ≠ 0 → (t.frameAt (8 + s.pixels / 8)).toNat = 256 - 2 ^ (8 - s.pixels % 8)))

/-- R163: the bitmap has `ceil_div(WIDTH*HEIGHT, 8)` bytes; when `WIDTH` is a multiple of 8 these are
`bytesPerRow * HEIGHT`, and byte `c` of row `r` holds the pixels `8*c .. 8*c + 7` of that row. -/
def Obligations.AlignedRowsOwnBytes : Prop :=
  ∀ s t : State, exec .enc s = .next t → t.status = .done →
    t.framelen = 8 + ceilDiv (s.width.toNat * s.height.toNat) 8 ∧
    (s.width.toNat % 8 = 0 →
      t.framelen = 8 + bytesPerRow s.width.toNat * s.height.toNat ∧
      ∀ r < s.height.toNat, ∀ c < bytesPerRow s.width.toNat, ∀ j < 8,
        (t.frameAt (8 + (r * bytesPerRow s.width.toNat + c))).getLsbD (7 - j)
          = decide (s.redAt (r * s.width.toNat + 8 * c + j) ≠ 0))

/-- R91: `FRAMELEN` of a completed `ENC`, and how it stands to the document's `8 + ceil(width/8)*height`. -/
def Obligations.FrameLength : Prop :=
  ∀ s t : State, exec .enc s = .next t → t.status = .done →
    t.framelen = 8 + ceilDiv (s.width.toNat * s.height.toNat) 8 ∧
    t.framelen ≤ 8 + ceilDiv s.width.toNat 8 * s.height.toNat ∧
    (s.width.toNat % 8 = 0 ∨ s.height.toNat = 1 → t.framelen = 8 + ceilDiv s.width.toNat 8 * s.height.toNat)

/-- R55, R89, R90: each size field of the header, read low byte first, is twice the bytes per row, or the row count, modulo
65536. -/
def Obligations.HeaderFieldsLittleEndian : Prop :=
  ∀ s t : State, exec .enc s = .next t → t.status = .done →
    (t.frameAt 4).toNat + 256 * (t.frameAt 5).toNat = (ceilDiv s.width.toNat 8 * 2) % 65536 ∧
    (t.frameAt 6).toNat + 256 * (t.frameAt 7).toNat = s.height.toNat % 65536

-- luminance_weighting (spec/40_luminance_weighting.md)

/-- R110: the contents of the tables and the bits they need. -/
def Obligations.TableContents : Prop :=
  ∀ i : Byte, lumR i = 299 * i.toNat ∧ lumG i = 587 * i.toNat ∧ lumB i = 114 * i.toNat ∧
    lumR i < 2 ^ 17 ∧ lumG i < 2 ^ 18 ∧ lumB i < 2 ^ 15

/-- R111, R112: the sum of the three table entries is at most 255000, so 18 bits hold it; `LUM` is the floor of the weighted sum in
thousandths, lies in `0 .. 255`, is monotone in each sample, and is exact on grey. -/
def Obligations.LuminanceExact : Prop :=
  (∀ r g b : Byte, lumR r + lumG g + lumB b ≤ 255000 ∧ lumR r + lumG g + lumB b < 2 ^ 18 ∧
      (lum r g b : Int) = floorDiv (299 * (r.toNat : Int) + 587 * (g.toNat : Int) + 114 * (b.toNat : Int)) 1000 ∧
      lum r g b ≤ 255) ∧
    (∀ r g b r' g' b' : Byte, r ≤ r' → g ≤ g' → b ≤ b' → lum r g b ≤ lum r' g' b') ∧
    ∀ g : Byte, lum g g g = g.toNat

/-- R113, R132: the decision of threshold mode: 0 where the sum reaches three times the threshold, else 255; the same as
comparing the floored average; on grey, `g ≥ c`. -/
def Obligations.ThresholdDecision : Prop :=
  (∀ r g b c : Byte, thr1 r g b c = if 3 * c.toNat ≤ r.toNat + g.toNat + b.toNat then 0 else 255) ∧
    (∀ r g b c : Byte, avg3ge r g b c = decide (c.toNat ≤ (r.toNat + g.toNat + b.toNat) / 3)) ∧
    ∀ g c : Byte, avg3ge g g g c = decide (c.toNat ≤ g.toNat)

/-- R131: with `CONTRAST` 0 every entry is 0; with `CONTRAST` 255 an entry is 0 only for a pixel that is exactly white. -/
def Obligations.ThresholdExtremes : Prop :=
  ∀ s t : State, exec .redT s = .next t → t.status = .done →
    (s.contrast = 0 → ∀ p < s.pixels, t.redAt p = 0) ∧
    (s.contrast = 255 → ∀ p < s.pixels,
      (t.redAt p = 0 ↔ s.pixAt (4 * p) = 255 ∧ s.pixAt (4 * p + 1) = 255 ∧ s.pixAt (4 * p + 2) = 255))

-- threshold_or_diffusion, dithered mode (spec/41_threshold_or_diffusion.md)

/-- R135: the error rounds toward minus infinity. -/
def Obligations.DiffusionErrorFloors : Prop :=
  ∀ (v : Int) (newPixel : Byte),
    8 * diffusionError v newPixel ≤ v - (newPixel.toNat : Int) ∧
      v - (newPixel.toNat : Int) < 8 * diffusionError v newPixel + 8

/-- R138: the value read when a pixel is visited is its luminance plus the errors of the earlier pixels, one for each tap that
leads to it; and the entry written is its quantisation. -/
def Obligations.VisitedValue : Prop :=
  ∀ s : State, s.ReducerReady → ∀ p < s.pixels,
    (s.visited p = (lum (s.redSample p) (s.greenSample p) (s.blueSample p) : Int)
      + ((List.range p).map fun q => ((tapOffsets s.width.toNat).map fun d =>
          if 4 * q + d = 4 * p then diffusionError (s.visited q) (quantise (s.visited q) s.contrast) else 0).sum).sum) ∧
    ∃ t, exec .redD s = .next t ∧ t.redAt p = quantise (s.visited p) s.contrast

/-- R140: the range of the values visited, of the errors, and of every slot of the image between the pixels of pass 2: a signed
10-bit slot never overflows. -/
def Obligations.WorkingValuesInRange : Prop :=
  ∀ s : State, s.ReducerReady →
    (∀ p < s.pixels, -192 ≤ s.visited p ∧ s.visited p ≤ 441 ∧
      -32 ≤ diffusionError (s.visited p) (quantise (s.visited p) s.contrast) ∧
      diffusionError (s.visited p) (quantise (s.visited p) s.contrast) ≤ 31) ∧
    ∀ p ≤ s.pixels, ∀ q < s.pixels, -224 ≤ (s.pass2 p).workAt (4 * q) ∧ (s.pass2 p).workAt (4 * q) ≤ 472

/-- R139 (c), (d): for `WIDTH ≥ 4`, pixel `p` adds its error once to each of the six pixels it reaches inside the image, across
row ends, and to no other slot. -/
def Obligations.TapsReachSixPixels : Prop :=
  ∀ (s : State) (p : Nat), 4 ≤ s.width.toNat →
    (∀ q < s.pixels, (diffusePixel p s).workAt (4 * q) = s.workAt (4 * q) +
      if q = p + 1 ∨ q = p + 2 ∨ q = p + s.width.toNat - 1 ∨ q = p + s.width.toNat ∨ q = p + s.width.toNat + 1 ∨
          q = p + 2 * s.width.toNat
      then diffusionError (s.workAt (4 * p)) (quantise (s.workAt (4 * p)) s.contrast) else 0) ∧
    ∀ k, 4 * s.pixels ≤ k ∨ k % 4 ≠ 0 → (diffusePixel p s).workAt k = s.workAt k

/-- R139 (d): taps that coincide add once each: at `WIDTH` 1 the next pixel gets the error twice, the one after it three times
and the pixel itself once; at `WIDTH` 2 the next two get it twice and the two after them once; at `WIDTH` 3 the pixel two
further gets it twice. No slot outside the image changes. -/
def Obligations.CoincidentTapsAccumulate : Prop :=
  ∀ (s : State) (p : Nat),
    let e := diffusionError (s.workAt (4 * p)) (quantise (s.workAt (4 * p)) s.contrast)
    (∀ q < s.pixels,
      (s.width = 1 → (diffusePixel p s).workAt (4 * q) = s.workAt (4 * q) +
        if q = p then e else if q = p + 1 then 2 * e else if q = p + 2 then 3 * e else 0) ∧
      (s.width = 2 → (diffusePixel p s).workAt (4 * q) = s.workAt (4 * q) +
        if q = p + 1 ∨ q = p + 2 then 2 * e else if q = p + 3 ∨ q = p + 4 then e else 0) ∧
      (s.width = 3 → (diffusePixel p s).workAt (4 * q) = s.workAt (4 * q) +
        if q = p + 2 then 2 * e else if q = p + 1 ∨ q = p + 3 ∨ q = p + 4 ∨ q = p + 6 then e else 0)) ∧
    (s.width = 1 ∨ s.width = 2 ∨ s.width = 3 → ∀ k, 4 * s.pixels ≤ k ∨ k % 4 ≠ 0 →
      (diffusePixel p s).workAt k = s.workAt k)

/-- R139 (e): a 1×1 image in dithered mode is the quantisation of its luminance alone. -/
def Obligations.SinglePixelDither : Prop :=
  ∀ s : State, s.ReducerReady → s.width = 1 → s.height = 1 →
    ∃ t, exec .redD s = .next t ∧ t.redlen = 1 ∧
      t.redAt 0 = if lum (s.redSample 0) (s.greenSample 0) (s.blueSample 0) < s.contrast.toNat then 0 else 255

-- The small steps (R10, R238)

/-- R10, R238: "the big step is by definition the composition of the small steps in that order": from a launch that passes its
checks, exactly `WIDTH*HEIGHT`, `2*WIDTH*HEIGHT` or `8 + ceil_div(WIDTH*HEIGHT, 8)` small steps, with `STATUS` at `BUSY` before
the last, reach the state `exec` answers. The machine's own steps get there: the launch and that many steps with nothing
pending, or the launch, that many polls of a `WAIT` and the poll that reads `DONE`. What the state holds in `WORK` is the
pseudocode's (log 9); the host's list, one small step per poll and that it awaits the outcome are the model's (logs 4, 5, 13). -/
def Obligations.SmallStepsComposeToCommand : Prop :=
  ∀ (i : Instr) (s : State), s.Ready i →
    (∀ k < s.smallSteps i, (ticks k (s.startCommand i)).status = .busy) ∧
      exec i s = .next (ticks (s.smallSteps i) (s.startCommand i)) ∧
      (∀ v : Byte, s.HostFree → s.host = [.start v] → decode [v] = .ok (i, []) →
        Host.Core.run Sys2Proof.core (1 + s.smallSteps i) s = exec i ((s.setHost []).setAwaits true)) ∧
      ∀ (v : Byte) (rest : List HostOp), s.HostFree → s.host = .start v :: .wait :: rest → decode [v] = .ok (i, []) →
        ∃ t, exec i s = .next t ∧
          Host.Core.run Sys2Proof.core (1 + s.smallSteps i + 1) s =
            .next { t with host := rest, heard := some 0x02, awaits := false }

/-- R238: "a fault ends the command before the first such step": a launch that fails its checks leaves the same state at both
levels. -/
def Obligations.FailedLaunchTakesNoSmallStep : Prop :=
  ∀ (i : Instr) (s : State), ¬ s.Ready i → exec i s = .next (s.startCommand i)

/-- R93, R230, R238; logs 4, 5: with no access pending, or with the host making none in this step, the sequencer makes one small
step if the block is `BUSY`, and otherwise nothing changes. A `WAIT` reads `STATUS`: while `BUSY` it stays pending and one small
step is made; while `IDLE` it stays pending; at `DONE` and `FAULT` it is over. The read ends R234's waiting unless it is `BUSY`. -/
def Obligations.SequencerMovesOnlyWhileBusy : Prop :=
  ∀ s : State,
    (s.host = [] → (s.status = .busy → step s = .next (tick s)) ∧ (s.status ≠ .busy → step s = .next s)) ∧
    ∀ rest : List HostOp,
      (s.host = .pause :: rest →
        (s.status = .busy → step s = .next (tick (s.setHost rest))) ∧
        (s.status ≠ .busy → step s = .next (s.setHost rest))) ∧
      (s.host = .wait :: rest →
        (s.status = .busy → step s = .next (tick (s.setHeard (some 0x01)))) ∧
        (s.status = .idle → step s = .next { s with heard := some 0x00, awaits := false }) ∧
        (s.status = .done → step s = .next { s with host := rest, heard := some 0x02, awaits := false }) ∧
        ∀ c, s.status = .fault c →
          step s = .next { s with host := rest, heard := some (Status.fault c).byte.toNat, awaits := false })

-- The host's side (spec/10_state.md R32, spec/20_memory.md R60, spec/60_exceptions.md R212)

/-- R32, R212, R234; logs 6, 13: while `BUSY`, an access of the host to a register or a buffer other than a read of `STATUS` has no
meaning; after it, until the host has read a `STATUS` that is not `BUSY`, a write of a register or a buffer and a read of a
buffer or a length register have none. Each is refused, under one name while `BUSY` and under another after it. -/
def Obligations.HostRefusedWhileBusy : Prop :=
  ∀ (s : State) (op : HostOp) (rest : List HostOp), s.host = op :: rest →
    (s.status = .busy →
      ((∃ r v, op = .write r v) ∨ (∃ b k v, op = .store b k v) ∨ (∃ b k, op = .load b k) ∨ (∃ v, op = .start v) ∨
        (∃ r, op = .read r ∧ r ≠ 1)) → step s = .refused (.hostWhileBusy op)) ∧
    (s.status ≠ .busy → s.awaits = true →
      ((∃ r v, op = .write r v ∧ r ≤ 8) ∨ (∃ b k v, op = .store b k v) ∨ (∃ b k, op = .load b k) ∨
        (∃ v, op = .start v) ∨ op = .read 6 ∨ op = .read 7 ∨ op = .read 8) → step s = .refused (.hostBeforePoll op))

/-- R24, R32, R58, R234: `STATUS` can be read at any time, also while `BUSY` and before an outcome has been read; the read changes
nothing of the block. What the host has heard, and that it no longer awaits a command that is over, are the model's fields (logs
4, 13). -/
def Obligations.StatusReadableAlways : Prop :=
  ∀ (s : State) (rest : List HostOp), s.host = .read 1 :: rest →
    step s = .next { s with
      host := rest, heard := some s.status.byte.toNat, awaits := s.awaits && decide (s.status = .busy) }

/-- R24, R201: the layout of `STATUS`: the state in bits 1:0, the code in bits 6:4 only while it is `FAULT`, bits 7 and 3:2
read 0, codes 1 to 5. -/
def Obligations.StatusLayout : Prop :=
  Status.idle.byte = 0x00 ∧ Status.busy.byte = 0x01 ∧ Status.done.byte = 0x02 ∧
    (Status.fault .cvCmd).byte = 0x13 ∧ (Status.fault .cvDim).byte = 0x23 ∧ (Status.fault .cvScale).byte = 0x33 ∧
    (Status.fault .resource).byte = 0x43 ∧ (Status.fault .cvLen).byte = 0x53 ∧
    ∀ st : Status, st.byte.getLsbD 7 = false ∧ st.byte.extractLsb' 2 2 = 0 ∧
      (st.byte.extractLsb' 4 3 ≠ 0 ↔ st.byte.extractLsb' 0 2 = 3) ∧ (st.byte.extractLsb' 4 3).toNat ≤ 5

/-- R23, R32, R60, R234: what a read of each register number returns. Before the outcome of a command has been read, the length
registers alone may not be read. A read of `STATUS` ends that waiting (log 13). -/
def Obligations.RegisterReads : Prop :=
  ∀ (s : State) (r : Nat) (rest : List HostOp), s.host = .read r :: rest → s.status ≠ .busy →
    s.awaits = false ∨ r ≠ 6 ∧ r ≠ 7 ∧ r ≠ 8 →
    step s = .next { s with
      host := rest
      heard := some (if r = 1 then s.status.byte.toNat else if r = 2 then s.width.toNat else if r = 3 then s.height.toNat
        else if r = 4 then s.contrast.toNat else if r = 5 then s.scale.toNat else if r = 6 then s.pixlen
        else if r = 7 then s.redlen else if r = 8 then s.framelen else 0)
      awaits := if r = 1 then false else s.awaits }

/-- R32, R60, R234: what a write of each register number but `CMD` does with a value that fits the register; `STATUS`, `FRAMELEN`
and the numbers 9 and above ignore it. Those numbers, no registers, may be written also before the outcome of a command has
been read (log 13). -/
def Obligations.RegisterWrites : Prop :=
  ∀ (s : State) (r v : Nat) (rest : List HostOp), s.host = .write r v :: rest → s.status ≠ .busy →
    s.awaits = false ∨ 9 ≤ r → r ≠ 0 →
    (r = 2 → v < 2 ^ 32 → step s = .next { s with host := rest, width := BitVec.ofNat 32 v }) ∧
    (r = 3 → v < 2 ^ 32 → step s = .next { s with host := rest, height := BitVec.ofNat 32 v }) ∧
    (r = 4 → v < 2 ^ 8 → step s = .next { s with host := rest, contrast := BitVec.ofNat 8 v }) ∧
    (r = 5 → v < 2 ^ 8 → step s = .next { s with host := rest, scale := BitVec.ofNat 8 v }) ∧
    (r = 6 → v < 2 ^ lenw s.cfg → step s = .next { s with host := rest, pixlen := v }) ∧
    (r = 7 → v < 2 ^ lenw s.cfg → step s = .next { s with host := rest, redlen := v }) ∧
    (r = 1 ∨ 8 ≤ r → step s = .next { s with host := rest })

/-- R6: `LENW` is the smallest width that holds more than `4*MAX_PIXELS` and more than `8 + ceil(MAX_PIXELS/8)`. -/
def Obligations.LengthWidthSmallest : Prop :=
  ∀ (c : Config) (n : Nat),
    lenw c ≤ n ↔ 4 * c.maxPixels < 2 ^ n ∧ 8 + ceilDiv c.maxPixels 8 < 2 ^ n

/-- R27, R29, R30, R32, R50; log 7: a host write of an element of `PIX` or `RED` changes that element alone; one of `FRAME` is
ignored; one of an element that does not exist stops. -/
def Obligations.ElementWrites : Prop :=
  ∀ (s : State) (b : Buffer) (k : Nat) (v : Byte) (rest : List HostOp),
    s.host = .store b k v :: rest → s.HostFree →
    (bufferSize s.cfg b ≤ k → step s = .fault (.noSuchElement b k)) ∧
    (k < bufferSize s.cfg b → b = .frame → step s = .next { s with host := rest }) ∧
    (k < bufferSize s.cfg b → b = .pix → ∃ t, step s = .next t ∧ t = { s with host := rest, pix := t.pix } ∧
      ∀ j, t.pixAt j = if j = k then v else s.pixAt j) ∧
    (k < bufferSize s.cfg b → b = .red → ∃ t, step s = .next t ∧ t = { s with host := rest, red := t.red } ∧
      ∀ j, t.redAt j = if j = k then v else s.redAt j)

/-- R207: the two level outputs follow `STATUS`. -/
def Obligations.OutputsMirrorStatus : Prop :=
  ∀ s : State, (s.doneOut = true ↔ s.status = .done) ∧ (s.faultOut = true ↔ ∃ c, s.status = .fault c)

/-- R94, R181: `CVT.T` and `CVT.D`: with the operands ready and `SCALE` legal, five host steps reach the state of the reducer
followed by that of the encoder; if the reducer faults, three steps leave everything but `STATUS` as it was; with `SCALE`
illegal the encoder faults `CV_SCALE` after the reduction. -/
def Obligations.ConvertRunsBothUnits : Prop :=
  ∀ (s : State) (i : Instr) (rest : List HostOp), s.HostFree →
    (i = .redT ∧ s.host = cvtT ++ rest ∨ i = .redD ∧ s.host = cvtD ++ rest) →
    (s.ReducerReady → ∃ t, exec i s = .next t ∧ t.status = .done ∧
      (s.scale.toNat ≤ 3 → ∃ u, exec .enc t = .next u ∧ u.status = .done ∧
        Host.Core.run Sys2Proof.core 5 s = .next { u with host := rest, heard := some 0x02 }) ∧
      (3 < s.scale.toNat →
        Host.Core.run Sys2Proof.core 5 s =
          .next { t with host := rest, status := .fault .cvScale, heard := some 0x33 })) ∧
    (¬ s.ReducerReady → ∃ c, exec i s = .next { s with status := .fault c } ∧
      Host.Core.run Sys2Proof.core 3 s =
        .next { s with host := rest, status := .fault c, heard := some (Status.fault c).byte.toNat })

-- Reset (R34, R230)

/-- R34: the values after reset: `STATUS` 0x00, every operand and length register 0, `CMD` reads 0, no buffer element with a
known value. -/
def Obligations.ResetValues : Prop :=
  State.reset.status.byte = 0x00 ∧ State.reset.width = 0 ∧ State.reset.height = 0 ∧ State.reset.contrast = 0 ∧
    State.reset.scale = 0 ∧ State.reset.pixlen = 0 ∧ State.reset.redlen = 0 ∧ State.reset.framelen = 0 ∧
    State.reset.readReg 0 = 0 ∧ State.reset.pix = [] ∧ State.reset.work = [] ∧ State.reset.red = [] ∧
    State.reset.frame = []

/-- R230: a reset in any state, also while `BUSY`: `IDLE`, all registers 0, the command abandoned, no buffer element with a
known value; the parameters stay. The count of resets, the instance's number and the host's own fields are the model's (logs 3,
4, 13, 14). -/
def Obligations.ResetAbandonsCommand : Prop :=
  ∀ (s : State) (rest : List HostOp), s.host = .reset :: rest →
    step s = .next
      { cfg := s.cfg, serial := s.serial, width := 0, height := 0, contrast := 0, scale := 0, pixlen := 0, redlen := 0, framelen := 0,
        status := .idle, pix := [], work := [], red := [], frame := [], scan := .idle, tmp := Temps.dead,
        epoch := s.epoch + 1, host := rest, heard := s.heard, awaits := false }

-- Whole-machine rules

/-- The invariant holds at reset. -/
def Obligations.InvAtReset : Prop := State.reset.Inv

/-- R22, R24, R26, R28, R50: every step keeps the invariant: buffers canonical and inside their sizes, `WORK` on multiples of 4,
length registers within `LENW`, the frame inside its buffer, the counter running exactly while `BUSY` and inside its pass. -/
def Obligations.StepKeepsInv : Prop := ∀ s t : State, s.Inv → step s = .next t → t.Inv

/-- R6, R20: no step changes the parameters. -/
def Obligations.ParametersNeverChange : Prop := ∀ s t : State, step s = .next t → t.cfg = s.cfg

/-- R21, R22: the operand registers and `PIXLEN` change only by a host write of a register other than `CMD`, or by reset. -/
def Obligations.OperandsHostOwned : Prop :=
  ∀ s t : State, step s = .next t → (∀ r v rest, s.host = .write r v :: rest → r = 0) →
    (∀ rest, s.host ≠ .reset :: rest) → SameOperands s t ∧ t.pixlen = s.pixlen

/-- R27, R66: `PIX` changes only by a host write of `PIX`, or by reset; no command and no small step of one changes it. -/
def Obligations.PixelsHostOwned : Prop :=
  ∀ s t : State, step s = .next t → (∀ k v rest, s.host ≠ .store .pix k v :: rest) →
    (∀ rest, s.host ≠ .reset :: rest) → ∀ k, t.pixAt k = s.pixAt k

/-- R30, R180: once produced, the frame changes only by an `ENC` (its launch, or its small steps) or by reset. -/
def Obligations.FrameImmutable : Prop :=
  ∀ s t : State, step s = .next t → (∀ v rest, s.host = .write 0 v :: rest → v % 256 ≠ 2) →
    (∀ k, s.scan ≠ .header k) → (∀ k, s.scan ≠ .bitmap k) → (∀ rest, s.host ≠ .reset :: rest) →
      t.framelen = s.framelen ∧ ∀ k, t.frameAt k = s.frameAt k

/-- R29, R236: the reduced array and `REDLEN` change only by a reducer command (its launch, or its small steps), by a host
write of `RED` or `REDLEN`, or by reset. -/
def Obligations.ReducedArrayKept : Prop :=
  ∀ s t : State, step s = .next t → (∀ v rest, s.host = .write 0 v :: rest → 2 ≤ v % 256) →
    (∀ v rest, s.host ≠ .write 7 v :: rest) → (∀ k v rest, s.host ≠ .store .red k v :: rest) →
    (∀ p, s.scan ≠ .threshold p) → (∀ p, s.scan ≠ .diffusion p) → (∀ rest, s.host ≠ .reset :: rest) →
      t.redlen = s.redlen ∧ ∀ p, t.redAt p = s.redAt p

/-- R67, R211: a step of one instance is that instance's own step and leaves every other instance as it was. That a system is a list
of instances of which one steps at a time is the model's choice (log 12). -/
def Obligations.InstancesShareNothing : Prop :=
  ∀ (system : List State) (k : Nat),
    (∀ s t, system[k]? = some s → step s = .next t →
      ∃ after, stepInstance system k = .next after ∧ after[k]? = some t ∧ after.length = system.length) ∧
    ∀ (after : List State) (j : Nat), stepInstance system k = .next after → j ≠ k → after[j]? = system[j]?

/-- R27, R29, R30, R32, R50, R58; logs 2, 7: a host read of an element hands it the element's byte and changes nothing of the
block; one that nothing has written since reset is a free value; one that does not exist stops. -/
def Obligations.ElementReads : Prop :=
  ∀ (s : State) (b : Buffer) (k : Nat) (rest : List HostOp), s.host = .load b k :: rest → s.HostFree →
    (bufferSize s.cfg b ≤ k → step s = .fault (.noSuchElement b k)) ∧
    (k < bufferSize s.cfg b → step s = .next { s with
      host := rest
      heard := some (match b with
        | .pix => s.pixAt k
        | .red => s.redAt k
        | .frame => s.frameAt k).toNat })
end

