-- ==== Sys2Proof/Laws/State.lean ====
section
/-! SUPPORT. One lemma per field per update, and per element read per update that cannot change it: true by rfl, so that no
later proof unfolds an update. -/

namespace Sys2Proof.Machine

variable (s : State)

@[simp] theorem State.putPix_cfg (k : Nat) (v : Byte) : (s.putPix k v).cfg = s.cfg := rfl
@[simp] theorem State.putPix_serial (k : Nat) (v : Byte) : (s.putPix k v).serial = s.serial := rfl
@[simp] theorem State.putPix_width (k : Nat) (v : Byte) : (s.putPix k v).width = s.width := rfl
@[simp] theorem State.putPix_height (k : Nat) (v : Byte) : (s.putPix k v).height = s.height := rfl
@[simp] theorem State.putPix_contrast (k : Nat) (v : Byte) : (s.putPix k v).contrast = s.contrast := rfl
@[simp] theorem State.putPix_scale (k : Nat) (v : Byte) : (s.putPix k v).scale = s.scale := rfl
@[simp] theorem State.putPix_pixlen (k : Nat) (v : Byte) : (s.putPix k v).pixlen = s.pixlen := rfl
@[simp] theorem State.putPix_redlen (k : Nat) (v : Byte) : (s.putPix k v).redlen = s.redlen := rfl
@[simp] theorem State.putPix_framelen (k : Nat) (v : Byte) : (s.putPix k v).framelen = s.framelen := rfl
@[simp] theorem State.putPix_status (k : Nat) (v : Byte) : (s.putPix k v).status = s.status := rfl
@[simp] theorem State.putPix_pix (k : Nat) (v : Byte) : (s.putPix k v).pix = Memory.put s.pix k v := rfl
@[simp] theorem State.putPix_work (k : Nat) (v : Byte) : (s.putPix k v).work = s.work := rfl
@[simp] theorem State.putPix_red (k : Nat) (v : Byte) : (s.putPix k v).red = s.red := rfl
@[simp] theorem State.putPix_frame (k : Nat) (v : Byte) : (s.putPix k v).frame = s.frame := rfl
@[simp] theorem State.putPix_scan (k : Nat) (v : Byte) : (s.putPix k v).scan = s.scan := rfl
@[simp] theorem State.putPix_tmp (k : Nat) (v : Byte) : (s.putPix k v).tmp = s.tmp := rfl
@[simp] theorem State.putPix_epoch (k : Nat) (v : Byte) : (s.putPix k v).epoch = s.epoch := rfl
@[simp] theorem State.putPix_host (k : Nat) (v : Byte) : (s.putPix k v).host = s.host := rfl
@[simp] theorem State.putPix_heard (k : Nat) (v : Byte) : (s.putPix k v).heard = s.heard := rfl
@[simp] theorem State.putPix_awaits (k : Nat) (v : Byte) : (s.putPix k v).awaits = s.awaits := rfl

@[simp] theorem State.putWork_cfg (k : Nat) (v : Int) : (s.putWork k v).cfg = s.cfg := rfl
@[simp] theorem State.putWork_serial (k : Nat) (v : Int) : (s.putWork k v).serial = s.serial := rfl
@[simp] theorem State.putWork_width (k : Nat) (v : Int) : (s.putWork k v).width = s.width := rfl
@[simp] theorem State.putWork_height (k : Nat) (v : Int) : (s.putWork k v).height = s.height := rfl
@[simp] theorem State.putWork_contrast (k : Nat) (v : Int) : (s.putWork k v).contrast = s.contrast := rfl
@[simp] theorem State.putWork_scale (k : Nat) (v : Int) : (s.putWork k v).scale = s.scale := rfl
@[simp] theorem State.putWork_pixlen (k : Nat) (v : Int) : (s.putWork k v).pixlen = s.pixlen := rfl
@[simp] theorem State.putWork_redlen (k : Nat) (v : Int) : (s.putWork k v).redlen = s.redlen := rfl
@[simp] theorem State.putWork_framelen (k : Nat) (v : Int) : (s.putWork k v).framelen = s.framelen := rfl
@[simp] theorem State.putWork_status (k : Nat) (v : Int) : (s.putWork k v).status = s.status := rfl
@[simp] theorem State.putWork_pix (k : Nat) (v : Int) : (s.putWork k v).pix = s.pix := rfl
@[simp] theorem State.putWork_work (k : Nat) (v : Int) : (s.putWork k v).work = Memory.put s.work k v := rfl
@[simp] theorem State.putWork_red (k : Nat) (v : Int) : (s.putWork k v).red = s.red := rfl
@[simp] theorem State.putWork_frame (k : Nat) (v : Int) : (s.putWork k v).frame = s.frame := rfl
@[simp] theorem State.putWork_scan (k : Nat) (v : Int) : (s.putWork k v).scan = s.scan := rfl
@[simp] theorem State.putWork_tmp (k : Nat) (v : Int) : (s.putWork k v).tmp = s.tmp := rfl
@[simp] theorem State.putWork_epoch (k : Nat) (v : Int) : (s.putWork k v).epoch = s.epoch := rfl
@[simp] theorem State.putWork_host (k : Nat) (v : Int) : (s.putWork k v).host = s.host := rfl
@[simp] theorem State.putWork_heard (k : Nat) (v : Int) : (s.putWork k v).heard = s.heard := rfl
@[simp] theorem State.putWork_awaits (k : Nat) (v : Int) : (s.putWork k v).awaits = s.awaits := rfl

@[simp] theorem State.putRed_cfg (k : Nat) (v : Byte) : (s.putRed k v).cfg = s.cfg := rfl
@[simp] theorem State.putRed_serial (k : Nat) (v : Byte) : (s.putRed k v).serial = s.serial := rfl
@[simp] theorem State.putRed_width (k : Nat) (v : Byte) : (s.putRed k v).width = s.width := rfl
@[simp] theorem State.putRed_height (k : Nat) (v : Byte) : (s.putRed k v).height = s.height := rfl
@[simp] theorem State.putRed_contrast (k : Nat) (v : Byte) : (s.putRed k v).contrast = s.contrast := rfl
@[simp] theorem State.putRed_scale (k : Nat) (v : Byte) : (s.putRed k v).scale = s.scale := rfl
@[simp] theorem State.putRed_pixlen (k : Nat) (v : Byte) : (s.putRed k v).pixlen = s.pixlen := rfl
@[simp] theorem State.putRed_redlen (k : Nat) (v : Byte) : (s.putRed k v).redlen = s.redlen := rfl
@[simp] theorem State.putRed_framelen (k : Nat) (v : Byte) : (s.putRed k v).framelen = s.framelen := rfl
@[simp] theorem State.putRed_status (k : Nat) (v : Byte) : (s.putRed k v).status = s.status := rfl
@[simp] theorem State.putRed_pix (k : Nat) (v : Byte) : (s.putRed k v).pix = s.pix := rfl
@[simp] theorem State.putRed_work (k : Nat) (v : Byte) : (s.putRed k v).work = s.work := rfl
@[simp] theorem State.putRed_red (k : Nat) (v : Byte) : (s.putRed k v).red = Memory.put s.red k v := rfl
@[simp] theorem State.putRed_frame (k : Nat) (v : Byte) : (s.putRed k v).frame = s.frame := rfl
@[simp] theorem State.putRed_scan (k : Nat) (v : Byte) : (s.putRed k v).scan = s.scan := rfl
@[simp] theorem State.putRed_tmp (k : Nat) (v : Byte) : (s.putRed k v).tmp = s.tmp := rfl
@[simp] theorem State.putRed_epoch (k : Nat) (v : Byte) : (s.putRed k v).epoch = s.epoch := rfl
@[simp] theorem State.putRed_host (k : Nat) (v : Byte) : (s.putRed k v).host = s.host := rfl
@[simp] theorem State.putRed_heard (k : Nat) (v : Byte) : (s.putRed k v).heard = s.heard := rfl
@[simp] theorem State.putRed_awaits (k : Nat) (v : Byte) : (s.putRed k v).awaits = s.awaits := rfl

@[simp] theorem State.putFrame_cfg (k : Nat) (v : Byte) : (s.putFrame k v).cfg = s.cfg := rfl
@[simp] theorem State.putFrame_serial (k : Nat) (v : Byte) : (s.putFrame k v).serial = s.serial := rfl
@[simp] theorem State.putFrame_width (k : Nat) (v : Byte) : (s.putFrame k v).width = s.width := rfl
@[simp] theorem State.putFrame_height (k : Nat) (v : Byte) : (s.putFrame k v).height = s.height := rfl
@[simp] theorem State.putFrame_contrast (k : Nat) (v : Byte) : (s.putFrame k v).contrast = s.contrast := rfl
@[simp] theorem State.putFrame_scale (k : Nat) (v : Byte) : (s.putFrame k v).scale = s.scale := rfl
@[simp] theorem State.putFrame_pixlen (k : Nat) (v : Byte) : (s.putFrame k v).pixlen = s.pixlen := rfl
@[simp] theorem State.putFrame_redlen (k : Nat) (v : Byte) : (s.putFrame k v).redlen = s.redlen := rfl
@[simp] theorem State.putFrame_framelen (k : Nat) (v : Byte) : (s.putFrame k v).framelen = s.framelen := rfl
@[simp] theorem State.putFrame_status (k : Nat) (v : Byte) : (s.putFrame k v).status = s.status := rfl
@[simp] theorem State.putFrame_pix (k : Nat) (v : Byte) : (s.putFrame k v).pix = s.pix := rfl
@[simp] theorem State.putFrame_work (k : Nat) (v : Byte) : (s.putFrame k v).work = s.work := rfl
@[simp] theorem State.putFrame_red (k : Nat) (v : Byte) : (s.putFrame k v).red = s.red := rfl
@[simp] theorem State.putFrame_frame (k : Nat) (v : Byte) : (s.putFrame k v).frame = Memory.put s.frame k v := rfl
@[simp] theorem State.putFrame_scan (k : Nat) (v : Byte) : (s.putFrame k v).scan = s.scan := rfl
@[simp] theorem State.putFrame_tmp (k : Nat) (v : Byte) : (s.putFrame k v).tmp = s.tmp := rfl
@[simp] theorem State.putFrame_epoch (k : Nat) (v : Byte) : (s.putFrame k v).epoch = s.epoch := rfl
@[simp] theorem State.putFrame_host (k : Nat) (v : Byte) : (s.putFrame k v).host = s.host := rfl
@[simp] theorem State.putFrame_heard (k : Nat) (v : Byte) : (s.putFrame k v).heard = s.heard := rfl
@[simp] theorem State.putFrame_awaits (k : Nat) (v : Byte) : (s.putFrame k v).awaits = s.awaits := rfl

@[simp] theorem State.setWidth_cfg (v : Word32) : (s.setWidth v).cfg = s.cfg := rfl
@[simp] theorem State.setWidth_serial (v : Word32) : (s.setWidth v).serial = s.serial := rfl
@[simp] theorem State.setWidth_width (v : Word32) : (s.setWidth v).width = v := rfl
@[simp] theorem State.setWidth_height (v : Word32) : (s.setWidth v).height = s.height := rfl
@[simp] theorem State.setWidth_contrast (v : Word32) : (s.setWidth v).contrast = s.contrast := rfl
@[simp] theorem State.setWidth_scale (v : Word32) : (s.setWidth v).scale = s.scale := rfl
@[simp] theorem State.setWidth_pixlen (v : Word32) : (s.setWidth v).pixlen = s.pixlen := rfl
@[simp] theorem State.setWidth_redlen (v : Word32) : (s.setWidth v).redlen = s.redlen := rfl
@[simp] theorem State.setWidth_framelen (v : Word32) : (s.setWidth v).framelen = s.framelen := rfl
@[simp] theorem State.setWidth_status (v : Word32) : (s.setWidth v).status = s.status := rfl
@[simp] theorem State.setWidth_pix (v : Word32) : (s.setWidth v).pix = s.pix := rfl
@[simp] theorem State.setWidth_work (v : Word32) : (s.setWidth v).work = s.work := rfl
@[simp] theorem State.setWidth_red (v : Word32) : (s.setWidth v).red = s.red := rfl
@[simp] theorem State.setWidth_frame (v : Word32) : (s.setWidth v).frame = s.frame := rfl
@[simp] theorem State.setWidth_scan (v : Word32) : (s.setWidth v).scan = s.scan := rfl
@[simp] theorem State.setWidth_tmp (v : Word32) : (s.setWidth v).tmp = s.tmp := rfl
@[simp] theorem State.setWidth_epoch (v : Word32) : (s.setWidth v).epoch = s.epoch := rfl
@[simp] theorem State.setWidth_host (v : Word32) : (s.setWidth v).host = s.host := rfl
@[simp] theorem State.setWidth_heard (v : Word32) : (s.setWidth v).heard = s.heard := rfl
@[simp] theorem State.setWidth_awaits (v : Word32) : (s.setWidth v).awaits = s.awaits := rfl

@[simp] theorem State.setHeight_cfg (v : Word32) : (s.setHeight v).cfg = s.cfg := rfl
@[simp] theorem State.setHeight_serial (v : Word32) : (s.setHeight v).serial = s.serial := rfl
@[simp] theorem State.setHeight_width (v : Word32) : (s.setHeight v).width = s.width := rfl
@[simp] theorem State.setHeight_height (v : Word32) : (s.setHeight v).height = v := rfl
@[simp] theorem State.setHeight_contrast (v : Word32) : (s.setHeight v).contrast = s.contrast := rfl
@[simp] theorem State.setHeight_scale (v : Word32) : (s.setHeight v).scale = s.scale := rfl
@[simp] theorem State.setHeight_pixlen (v : Word32) : (s.setHeight v).pixlen = s.pixlen := rfl
@[simp] theorem State.setHeight_redlen (v : Word32) : (s.setHeight v).redlen = s.redlen := rfl
@[simp] theorem State.setHeight_framelen (v : Word32) : (s.setHeight v).framelen = s.framelen := rfl
@[simp] theorem State.setHeight_status (v : Word32) : (s.setHeight v).status = s.status := rfl
@[simp] theorem State.setHeight_pix (v : Word32) : (s.setHeight v).pix = s.pix := rfl
@[simp] theorem State.setHeight_work (v : Word32) : (s.setHeight v).work = s.work := rfl
@[simp] theorem State.setHeight_red (v : Word32) : (s.setHeight v).red = s.red := rfl
@[simp] theorem State.setHeight_frame (v : Word32) : (s.setHeight v).frame = s.frame := rfl
@[simp] theorem State.setHeight_scan (v : Word32) : (s.setHeight v).scan = s.scan := rfl
@[simp] theorem State.setHeight_tmp (v : Word32) : (s.setHeight v).tmp = s.tmp := rfl
@[simp] theorem State.setHeight_epoch (v : Word32) : (s.setHeight v).epoch = s.epoch := rfl
@[simp] theorem State.setHeight_host (v : Word32) : (s.setHeight v).host = s.host := rfl
@[simp] theorem State.setHeight_heard (v : Word32) : (s.setHeight v).heard = s.heard := rfl
@[simp] theorem State.setHeight_awaits (v : Word32) : (s.setHeight v).awaits = s.awaits := rfl

@[simp] theorem State.setContrast_cfg (v : Byte) : (s.setContrast v).cfg = s.cfg := rfl
@[simp] theorem State.setContrast_serial (v : Byte) : (s.setContrast v).serial = s.serial := rfl
@[simp] theorem State.setContrast_width (v : Byte) : (s.setContrast v).width = s.width := rfl
@[simp] theorem State.setContrast_height (v : Byte) : (s.setContrast v).height = s.height := rfl
@[simp] theorem State.setContrast_contrast (v : Byte) : (s.setContrast v).contrast = v := rfl
@[simp] theorem State.setContrast_scale (v : Byte) : (s.setContrast v).scale = s.scale := rfl
@[simp] theorem State.setContrast_pixlen (v : Byte) : (s.setContrast v).pixlen = s.pixlen := rfl
@[simp] theorem State.setContrast_redlen (v : Byte) : (s.setContrast v).redlen = s.redlen := rfl
@[simp] theorem State.setContrast_framelen (v : Byte) : (s.setContrast v).framelen = s.framelen := rfl
@[simp] theorem State.setContrast_status (v : Byte) : (s.setContrast v).status = s.status := rfl
@[simp] theorem State.setContrast_pix (v : Byte) : (s.setContrast v).pix = s.pix := rfl
@[simp] theorem State.setContrast_work (v : Byte) : (s.setContrast v).work = s.work := rfl
@[simp] theorem State.setContrast_red (v : Byte) : (s.setContrast v).red = s.red := rfl
@[simp] theorem State.setContrast_frame (v : Byte) : (s.setContrast v).frame = s.frame := rfl
@[simp] theorem State.setContrast_scan (v : Byte) : (s.setContrast v).scan = s.scan := rfl
@[simp] theorem State.setContrast_tmp (v : Byte) : (s.setContrast v).tmp = s.tmp := rfl
@[simp] theorem State.setContrast_epoch (v : Byte) : (s.setContrast v).epoch = s.epoch := rfl
@[simp] theorem State.setContrast_host (v : Byte) : (s.setContrast v).host = s.host := rfl
@[simp] theorem State.setContrast_heard (v : Byte) : (s.setContrast v).heard = s.heard := rfl
@[simp] theorem State.setContrast_awaits (v : Byte) : (s.setContrast v).awaits = s.awaits := rfl

@[simp] theorem State.setScale_cfg (v : Byte) : (s.setScale v).cfg = s.cfg := rfl
@[simp] theorem State.setScale_serial (v : Byte) : (s.setScale v).serial = s.serial := rfl
@[simp] theorem State.setScale_width (v : Byte) : (s.setScale v).width = s.width := rfl
@[simp] theorem State.setScale_height (v : Byte) : (s.setScale v).height = s.height := rfl
@[simp] theorem State.setScale_contrast (v : Byte) : (s.setScale v).contrast = s.contrast := rfl
@[simp] theorem State.setScale_scale (v : Byte) : (s.setScale v).scale = v := rfl
@[simp] theorem State.setScale_pixlen (v : Byte) : (s.setScale v).pixlen = s.pixlen := rfl
@[simp] theorem State.setScale_redlen (v : Byte) : (s.setScale v).redlen = s.redlen := rfl
@[simp] theorem State.setScale_framelen (v : Byte) : (s.setScale v).framelen = s.framelen := rfl
@[simp] theorem State.setScale_status (v : Byte) : (s.setScale v).status = s.status := rfl
@[simp] theorem State.setScale_pix (v : Byte) : (s.setScale v).pix = s.pix := rfl
@[simp] theorem State.setScale_work (v : Byte) : (s.setScale v).work = s.work := rfl
@[simp] theorem State.setScale_red (v : Byte) : (s.setScale v).red = s.red := rfl
@[simp] theorem State.setScale_frame (v : Byte) : (s.setScale v).frame = s.frame := rfl
@[simp] theorem State.setScale_scan (v : Byte) : (s.setScale v).scan = s.scan := rfl
@[simp] theorem State.setScale_tmp (v : Byte) : (s.setScale v).tmp = s.tmp := rfl
@[simp] theorem State.setScale_epoch (v : Byte) : (s.setScale v).epoch = s.epoch := rfl
@[simp] theorem State.setScale_host (v : Byte) : (s.setScale v).host = s.host := rfl
@[simp] theorem State.setScale_heard (v : Byte) : (s.setScale v).heard = s.heard := rfl
@[simp] theorem State.setScale_awaits (v : Byte) : (s.setScale v).awaits = s.awaits := rfl

@[simp] theorem State.setPixlen_cfg (v : Nat) : (s.setPixlen v).cfg = s.cfg := rfl
@[simp] theorem State.setPixlen_serial (v : Nat) : (s.setPixlen v).serial = s.serial := rfl
@[simp] theorem State.setPixlen_width (v : Nat) : (s.setPixlen v).width = s.width := rfl
@[simp] theorem State.setPixlen_height (v : Nat) : (s.setPixlen v).height = s.height := rfl
@[simp] theorem State.setPixlen_contrast (v : Nat) : (s.setPixlen v).contrast = s.contrast := rfl
@[simp] theorem State.setPixlen_scale (v : Nat) : (s.setPixlen v).scale = s.scale := rfl
@[simp] theorem State.setPixlen_pixlen (v : Nat) : (s.setPixlen v).pixlen = v := rfl
@[simp] theorem State.setPixlen_redlen (v : Nat) : (s.setPixlen v).redlen = s.redlen := rfl
@[simp] theorem State.setPixlen_framelen (v : Nat) : (s.setPixlen v).framelen = s.framelen := rfl
@[simp] theorem State.setPixlen_status (v : Nat) : (s.setPixlen v).status = s.status := rfl
@[simp] theorem State.setPixlen_pix (v : Nat) : (s.setPixlen v).pix = s.pix := rfl
@[simp] theorem State.setPixlen_work (v : Nat) : (s.setPixlen v).work = s.work := rfl
@[simp] theorem State.setPixlen_red (v : Nat) : (s.setPixlen v).red = s.red := rfl
@[simp] theorem State.setPixlen_frame (v : Nat) : (s.setPixlen v).frame = s.frame := rfl
@[simp] theorem State.setPixlen_scan (v : Nat) : (s.setPixlen v).scan = s.scan := rfl
@[simp] theorem State.setPixlen_tmp (v : Nat) : (s.setPixlen v).tmp = s.tmp := rfl
@[simp] theorem State.setPixlen_epoch (v : Nat) : (s.setPixlen v).epoch = s.epoch := rfl
@[simp] theorem State.setPixlen_host (v : Nat) : (s.setPixlen v).host = s.host := rfl
@[simp] theorem State.setPixlen_heard (v : Nat) : (s.setPixlen v).heard = s.heard := rfl
@[simp] theorem State.setPixlen_awaits (v : Nat) : (s.setPixlen v).awaits = s.awaits := rfl

@[simp] theorem State.setRedlen_cfg (v : Nat) : (s.setRedlen v).cfg = s.cfg := rfl
@[simp] theorem State.setRedlen_serial (v : Nat) : (s.setRedlen v).serial = s.serial := rfl
@[simp] theorem State.setRedlen_width (v : Nat) : (s.setRedlen v).width = s.width := rfl
@[simp] theorem State.setRedlen_height (v : Nat) : (s.setRedlen v).height = s.height := rfl
@[simp] theorem State.setRedlen_contrast (v : Nat) : (s.setRedlen v).contrast = s.contrast := rfl
@[simp] theorem State.setRedlen_scale (v : Nat) : (s.setRedlen v).scale = s.scale := rfl
@[simp] theorem State.setRedlen_pixlen (v : Nat) : (s.setRedlen v).pixlen = s.pixlen := rfl
@[simp] theorem State.setRedlen_redlen (v : Nat) : (s.setRedlen v).redlen = v := rfl
@[simp] theorem State.setRedlen_framelen (v : Nat) : (s.setRedlen v).framelen = s.framelen := rfl
@[simp] theorem State.setRedlen_status (v : Nat) : (s.setRedlen v).status = s.status := rfl
@[simp] theorem State.setRedlen_pix (v : Nat) : (s.setRedlen v).pix = s.pix := rfl
@[simp] theorem State.setRedlen_work (v : Nat) : (s.setRedlen v).work = s.work := rfl
@[simp] theorem State.setRedlen_red (v : Nat) : (s.setRedlen v).red = s.red := rfl
@[simp] theorem State.setRedlen_frame (v : Nat) : (s.setRedlen v).frame = s.frame := rfl
@[simp] theorem State.setRedlen_scan (v : Nat) : (s.setRedlen v).scan = s.scan := rfl
@[simp] theorem State.setRedlen_tmp (v : Nat) : (s.setRedlen v).tmp = s.tmp := rfl
@[simp] theorem State.setRedlen_epoch (v : Nat) : (s.setRedlen v).epoch = s.epoch := rfl
@[simp] theorem State.setRedlen_host (v : Nat) : (s.setRedlen v).host = s.host := rfl
@[simp] theorem State.setRedlen_heard (v : Nat) : (s.setRedlen v).heard = s.heard := rfl
@[simp] theorem State.setRedlen_awaits (v : Nat) : (s.setRedlen v).awaits = s.awaits := rfl

@[simp] theorem State.setFramelen_cfg (v : Nat) : (s.setFramelen v).cfg = s.cfg := rfl
@[simp] theorem State.setFramelen_serial (v : Nat) : (s.setFramelen v).serial = s.serial := rfl
@[simp] theorem State.setFramelen_width (v : Nat) : (s.setFramelen v).width = s.width := rfl
@[simp] theorem State.setFramelen_height (v : Nat) : (s.setFramelen v).height = s.height := rfl
@[simp] theorem State.setFramelen_contrast (v : Nat) : (s.setFramelen v).contrast = s.contrast := rfl
@[simp] theorem State.setFramelen_scale (v : Nat) : (s.setFramelen v).scale = s.scale := rfl
@[simp] theorem State.setFramelen_pixlen (v : Nat) : (s.setFramelen v).pixlen = s.pixlen := rfl
@[simp] theorem State.setFramelen_redlen (v : Nat) : (s.setFramelen v).redlen = s.redlen := rfl
@[simp] theorem State.setFramelen_framelen (v : Nat) : (s.setFramelen v).framelen = v := rfl
@[simp] theorem State.setFramelen_status (v : Nat) : (s.setFramelen v).status = s.status := rfl
@[simp] theorem State.setFramelen_pix (v : Nat) : (s.setFramelen v).pix = s.pix := rfl
@[simp] theorem State.setFramelen_work (v : Nat) : (s.setFramelen v).work = s.work := rfl
@[simp] theorem State.setFramelen_red (v : Nat) : (s.setFramelen v).red = s.red := rfl
@[simp] theorem State.setFramelen_frame (v : Nat) : (s.setFramelen v).frame = s.frame := rfl
@[simp] theorem State.setFramelen_scan (v : Nat) : (s.setFramelen v).scan = s.scan := rfl
@[simp] theorem State.setFramelen_tmp (v : Nat) : (s.setFramelen v).tmp = s.tmp := rfl
@[simp] theorem State.setFramelen_epoch (v : Nat) : (s.setFramelen v).epoch = s.epoch := rfl
@[simp] theorem State.setFramelen_host (v : Nat) : (s.setFramelen v).host = s.host := rfl
@[simp] theorem State.setFramelen_heard (v : Nat) : (s.setFramelen v).heard = s.heard := rfl
@[simp] theorem State.setFramelen_awaits (v : Nat) : (s.setFramelen v).awaits = s.awaits := rfl

@[simp] theorem State.setStatus_cfg (v : Status) : (s.setStatus v).cfg = s.cfg := rfl
@[simp] theorem State.setStatus_serial (v : Status) : (s.setStatus v).serial = s.serial := rfl
@[simp] theorem State.setStatus_width (v : Status) : (s.setStatus v).width = s.width := rfl
@[simp] theorem State.setStatus_height (v : Status) : (s.setStatus v).height = s.height := rfl
@[simp] theorem State.setStatus_contrast (v : Status) : (s.setStatus v).contrast = s.contrast := rfl
@[simp] theorem State.setStatus_scale (v : Status) : (s.setStatus v).scale = s.scale := rfl
@[simp] theorem State.setStatus_pixlen (v : Status) : (s.setStatus v).pixlen = s.pixlen := rfl
@[simp] theorem State.setStatus_redlen (v : Status) : (s.setStatus v).redlen = s.redlen := rfl
@[simp] theorem State.setStatus_framelen (v : Status) : (s.setStatus v).framelen = s.framelen := rfl
@[simp] theorem State.setStatus_status (v : Status) : (s.setStatus v).status = v := rfl
@[simp] theorem State.setStatus_pix (v : Status) : (s.setStatus v).pix = s.pix := rfl
@[simp] theorem State.setStatus_work (v : Status) : (s.setStatus v).work = s.work := rfl
@[simp] theorem State.setStatus_red (v : Status) : (s.setStatus v).red = s.red := rfl
@[simp] theorem State.setStatus_frame (v : Status) : (s.setStatus v).frame = s.frame := rfl
@[simp] theorem State.setStatus_scan (v : Status) : (s.setStatus v).scan = s.scan := rfl
@[simp] theorem State.setStatus_tmp (v : Status) : (s.setStatus v).tmp = s.tmp := rfl
@[simp] theorem State.setStatus_epoch (v : Status) : (s.setStatus v).epoch = s.epoch := rfl
@[simp] theorem State.setStatus_host (v : Status) : (s.setStatus v).host = s.host := rfl
@[simp] theorem State.setStatus_heard (v : Status) : (s.setStatus v).heard = s.heard := rfl
@[simp] theorem State.setStatus_awaits (v : Status) : (s.setStatus v).awaits = s.awaits := rfl

@[simp] theorem State.setScan_cfg (v : Scan) : (s.setScan v).cfg = s.cfg := rfl
@[simp] theorem State.setScan_serial (v : Scan) : (s.setScan v).serial = s.serial := rfl
@[simp] theorem State.setScan_width (v : Scan) : (s.setScan v).width = s.width := rfl
@[simp] theorem State.setScan_height (v : Scan) : (s.setScan v).height = s.height := rfl
@[simp] theorem State.setScan_contrast (v : Scan) : (s.setScan v).contrast = s.contrast := rfl
@[simp] theorem State.setScan_scale (v : Scan) : (s.setScan v).scale = s.scale := rfl
@[simp] theorem State.setScan_pixlen (v : Scan) : (s.setScan v).pixlen = s.pixlen := rfl
@[simp] theorem State.setScan_redlen (v : Scan) : (s.setScan v).redlen = s.redlen := rfl
@[simp] theorem State.setScan_framelen (v : Scan) : (s.setScan v).framelen = s.framelen := rfl
@[simp] theorem State.setScan_status (v : Scan) : (s.setScan v).status = s.status := rfl
@[simp] theorem State.setScan_pix (v : Scan) : (s.setScan v).pix = s.pix := rfl
@[simp] theorem State.setScan_work (v : Scan) : (s.setScan v).work = s.work := rfl
@[simp] theorem State.setScan_red (v : Scan) : (s.setScan v).red = s.red := rfl
@[simp] theorem State.setScan_frame (v : Scan) : (s.setScan v).frame = s.frame := rfl
@[simp] theorem State.setScan_scan (v : Scan) : (s.setScan v).scan = v := rfl
@[simp] theorem State.setScan_tmp (v : Scan) : (s.setScan v).tmp = s.tmp := rfl
@[simp] theorem State.setScan_epoch (v : Scan) : (s.setScan v).epoch = s.epoch := rfl
@[simp] theorem State.setScan_host (v : Scan) : (s.setScan v).host = s.host := rfl
@[simp] theorem State.setScan_heard (v : Scan) : (s.setScan v).heard = s.heard := rfl
@[simp] theorem State.setScan_awaits (v : Scan) : (s.setScan v).awaits = s.awaits := rfl

@[simp] theorem State.setTmp_cfg (v : Temps) : (s.setTmp v).cfg = s.cfg := rfl
@[simp] theorem State.setTmp_serial (v : Temps) : (s.setTmp v).serial = s.serial := rfl
@[simp] theorem State.setTmp_width (v : Temps) : (s.setTmp v).width = s.width := rfl
@[simp] theorem State.setTmp_height (v : Temps) : (s.setTmp v).height = s.height := rfl
@[simp] theorem State.setTmp_contrast (v : Temps) : (s.setTmp v).contrast = s.contrast := rfl
@[simp] theorem State.setTmp_scale (v : Temps) : (s.setTmp v).scale = s.scale := rfl
@[simp] theorem State.setTmp_pixlen (v : Temps) : (s.setTmp v).pixlen = s.pixlen := rfl
@[simp] theorem State.setTmp_redlen (v : Temps) : (s.setTmp v).redlen = s.redlen := rfl
@[simp] theorem State.setTmp_framelen (v : Temps) : (s.setTmp v).framelen = s.framelen := rfl
@[simp] theorem State.setTmp_status (v : Temps) : (s.setTmp v).status = s.status := rfl
@[simp] theorem State.setTmp_pix (v : Temps) : (s.setTmp v).pix = s.pix := rfl
@[simp] theorem State.setTmp_work (v : Temps) : (s.setTmp v).work = s.work := rfl
@[simp] theorem State.setTmp_red (v : Temps) : (s.setTmp v).red = s.red := rfl
@[simp] theorem State.setTmp_frame (v : Temps) : (s.setTmp v).frame = s.frame := rfl
@[simp] theorem State.setTmp_scan (v : Temps) : (s.setTmp v).scan = s.scan := rfl
@[simp] theorem State.setTmp_tmp (v : Temps) : (s.setTmp v).tmp = v := rfl
@[simp] theorem State.setTmp_epoch (v : Temps) : (s.setTmp v).epoch = s.epoch := rfl
@[simp] theorem State.setTmp_host (v : Temps) : (s.setTmp v).host = s.host := rfl
@[simp] theorem State.setTmp_heard (v : Temps) : (s.setTmp v).heard = s.heard := rfl
@[simp] theorem State.setTmp_awaits (v : Temps) : (s.setTmp v).awaits = s.awaits := rfl

@[simp] theorem State.setHost_cfg (v : List HostOp) : (s.setHost v).cfg = s.cfg := rfl
@[simp] theorem State.setHost_serial (v : List HostOp) : (s.setHost v).serial = s.serial := rfl
@[simp] theorem State.setHost_width (v : List HostOp) : (s.setHost v).width = s.width := rfl
@[simp] theorem State.setHost_height (v : List HostOp) : (s.setHost v).height = s.height := rfl
@[simp] theorem State.setHost_contrast (v : List HostOp) : (s.setHost v).contrast = s.contrast := rfl
@[simp] theorem State.setHost_scale (v : List HostOp) : (s.setHost v).scale = s.scale := rfl
@[simp] theorem State.setHost_pixlen (v : List HostOp) : (s.setHost v).pixlen = s.pixlen := rfl
@[simp] theorem State.setHost_redlen (v : List HostOp) : (s.setHost v).redlen = s.redlen := rfl
@[simp] theorem State.setHost_framelen (v : List HostOp) : (s.setHost v).framelen = s.framelen := rfl
@[simp] theorem State.setHost_status (v : List HostOp) : (s.setHost v).status = s.status := rfl
@[simp] theorem State.setHost_pix (v : List HostOp) : (s.setHost v).pix = s.pix := rfl
@[simp] theorem State.setHost_work (v : List HostOp) : (s.setHost v).work = s.work := rfl
@[simp] theorem State.setHost_red (v : List HostOp) : (s.setHost v).red = s.red := rfl
@[simp] theorem State.setHost_frame (v : List HostOp) : (s.setHost v).frame = s.frame := rfl
@[simp] theorem State.setHost_scan (v : List HostOp) : (s.setHost v).scan = s.scan := rfl
@[simp] theorem State.setHost_tmp (v : List HostOp) : (s.setHost v).tmp = s.tmp := rfl
@[simp] theorem State.setHost_epoch (v : List HostOp) : (s.setHost v).epoch = s.epoch := rfl
@[simp] theorem State.setHost_host (v : List HostOp) : (s.setHost v).host = v := rfl
@[simp] theorem State.setHost_heard (v : List HostOp) : (s.setHost v).heard = s.heard := rfl
@[simp] theorem State.setHost_awaits (v : List HostOp) : (s.setHost v).awaits = s.awaits := rfl

@[simp] theorem State.setHeard_cfg (v : Option Nat) : (s.setHeard v).cfg = s.cfg := rfl
@[simp] theorem State.setHeard_serial (v : Option Nat) : (s.setHeard v).serial = s.serial := rfl
@[simp] theorem State.setHeard_width (v : Option Nat) : (s.setHeard v).width = s.width := rfl
@[simp] theorem State.setHeard_height (v : Option Nat) : (s.setHeard v).height = s.height := rfl
@[simp] theorem State.setHeard_contrast (v : Option Nat) : (s.setHeard v).contrast = s.contrast := rfl
@[simp] theorem State.setHeard_scale (v : Option Nat) : (s.setHeard v).scale = s.scale := rfl
@[simp] theorem State.setHeard_pixlen (v : Option Nat) : (s.setHeard v).pixlen = s.pixlen := rfl
@[simp] theorem State.setHeard_redlen (v : Option Nat) : (s.setHeard v).redlen = s.redlen := rfl
@[simp] theorem State.setHeard_framelen (v : Option Nat) : (s.setHeard v).framelen = s.framelen := rfl
@[simp] theorem State.setHeard_status (v : Option Nat) : (s.setHeard v).status = s.status := rfl
@[simp] theorem State.setHeard_pix (v : Option Nat) : (s.setHeard v).pix = s.pix := rfl
@[simp] theorem State.setHeard_work (v : Option Nat) : (s.setHeard v).work = s.work := rfl
@[simp] theorem State.setHeard_red (v : Option Nat) : (s.setHeard v).red = s.red := rfl
@[simp] theorem State.setHeard_frame (v : Option Nat) : (s.setHeard v).frame = s.frame := rfl
@[simp] theorem State.setHeard_scan (v : Option Nat) : (s.setHeard v).scan = s.scan := rfl
@[simp] theorem State.setHeard_tmp (v : Option Nat) : (s.setHeard v).tmp = s.tmp := rfl
@[simp] theorem State.setHeard_epoch (v : Option Nat) : (s.setHeard v).epoch = s.epoch := rfl
@[simp] theorem State.setHeard_host (v : Option Nat) : (s.setHeard v).host = s.host := rfl
@[simp] theorem State.setHeard_heard (v : Option Nat) : (s.setHeard v).heard = v := rfl
@[simp] theorem State.setHeard_awaits (v : Option Nat) : (s.setHeard v).awaits = s.awaits := rfl

@[simp] theorem State.setAwaits_cfg (v : Bool) : (s.setAwaits v).cfg = s.cfg := rfl
@[simp] theorem State.setAwaits_serial (v : Bool) : (s.setAwaits v).serial = s.serial := rfl
@[simp] theorem State.setAwaits_width (v : Bool) : (s.setAwaits v).width = s.width := rfl
@[simp] theorem State.setAwaits_height (v : Bool) : (s.setAwaits v).height = s.height := rfl
@[simp] theorem State.setAwaits_contrast (v : Bool) : (s.setAwaits v).contrast = s.contrast := rfl
@[simp] theorem State.setAwaits_scale (v : Bool) : (s.setAwaits v).scale = s.scale := rfl
@[simp] theorem State.setAwaits_pixlen (v : Bool) : (s.setAwaits v).pixlen = s.pixlen := rfl
@[simp] theorem State.setAwaits_redlen (v : Bool) : (s.setAwaits v).redlen = s.redlen := rfl
@[simp] theorem State.setAwaits_framelen (v : Bool) : (s.setAwaits v).framelen = s.framelen := rfl
@[simp] theorem State.setAwaits_status (v : Bool) : (s.setAwaits v).status = s.status := rfl
@[simp] theorem State.setAwaits_pix (v : Bool) : (s.setAwaits v).pix = s.pix := rfl
@[simp] theorem State.setAwaits_work (v : Bool) : (s.setAwaits v).work = s.work := rfl
@[simp] theorem State.setAwaits_red (v : Bool) : (s.setAwaits v).red = s.red := rfl
@[simp] theorem State.setAwaits_frame (v : Bool) : (s.setAwaits v).frame = s.frame := rfl
@[simp] theorem State.setAwaits_scan (v : Bool) : (s.setAwaits v).scan = s.scan := rfl
@[simp] theorem State.setAwaits_tmp (v : Bool) : (s.setAwaits v).tmp = s.tmp := rfl
@[simp] theorem State.setAwaits_epoch (v : Bool) : (s.setAwaits v).epoch = s.epoch := rfl
@[simp] theorem State.setAwaits_host (v : Bool) : (s.setAwaits v).host = s.host := rfl
@[simp] theorem State.setAwaits_heard (v : Bool) : (s.setAwaits v).heard = s.heard := rfl
@[simp] theorem State.setAwaits_awaits (v : Bool) : (s.setAwaits v).awaits = v := rfl

@[simp] theorem State.putWork_pixAt (k : Nat) (v : Int) (j : Nat) : (s.putWork k v).pixAt j = s.pixAt j := rfl
@[simp] theorem State.putRed_pixAt (k : Nat) (v : Byte) (j : Nat) : (s.putRed k v).pixAt j = s.pixAt j := rfl
@[simp] theorem State.putFrame_pixAt (k : Nat) (v : Byte) (j : Nat) : (s.putFrame k v).pixAt j = s.pixAt j := rfl
@[simp] theorem State.setWidth_pixAt (v : Word32) (j : Nat) : (s.setWidth v).pixAt j = s.pixAt j := rfl
@[simp] theorem State.setHeight_pixAt (v : Word32) (j : Nat) : (s.setHeight v).pixAt j = s.pixAt j := rfl
@[simp] theorem State.setContrast_pixAt (v : Byte) (j : Nat) : (s.setContrast v).pixAt j = s.pixAt j := rfl
@[simp] theorem State.setScale_pixAt (v : Byte) (j : Nat) : (s.setScale v).pixAt j = s.pixAt j := rfl
@[simp] theorem State.setPixlen_pixAt (v : Nat) (j : Nat) : (s.setPixlen v).pixAt j = s.pixAt j := rfl
@[simp] theorem State.setRedlen_pixAt (v : Nat) (j : Nat) : (s.setRedlen v).pixAt j = s.pixAt j := rfl
@[simp] theorem State.setFramelen_pixAt (v : Nat) (j : Nat) : (s.setFramelen v).pixAt j = s.pixAt j := rfl
@[simp] theorem State.setStatus_pixAt (v : Status) (j : Nat) : (s.setStatus v).pixAt j = s.pixAt j := rfl
@[simp] theorem State.setScan_pixAt (v : Scan) (j : Nat) : (s.setScan v).pixAt j = s.pixAt j := rfl
@[simp] theorem State.setTmp_pixAt (v : Temps) (j : Nat) : (s.setTmp v).pixAt j = s.pixAt j := rfl
@[simp] theorem State.setHost_pixAt (v : List HostOp) (j : Nat) : (s.setHost v).pixAt j = s.pixAt j := rfl
@[simp] theorem State.setHeard_pixAt (v : Option Nat) (j : Nat) : (s.setHeard v).pixAt j = s.pixAt j := rfl
@[simp] theorem State.setAwaits_pixAt (v : Bool) (j : Nat) : (s.setAwaits v).pixAt j = s.pixAt j := rfl

@[simp] theorem State.putPix_redAt (k : Nat) (v : Byte) (j : Nat) : (s.putPix k v).redAt j = s.redAt j := rfl
@[simp] theorem State.putWork_redAt (k : Nat) (v : Int) (j : Nat) : (s.putWork k v).redAt j = s.redAt j := rfl
@[simp] theorem State.putFrame_redAt (k : Nat) (v : Byte) (j : Nat) : (s.putFrame k v).redAt j = s.redAt j := rfl
@[simp] theorem State.setWidth_redAt (v : Word32) (j : Nat) : (s.setWidth v).redAt j = s.redAt j := rfl
@[simp] theorem State.setHeight_redAt (v : Word32) (j : Nat) : (s.setHeight v).redAt j = s.redAt j := rfl
@[simp] theorem State.setContrast_redAt (v : Byte) (j : Nat) : (s.setContrast v).redAt j = s.redAt j := rfl
@[simp] theorem State.setScale_redAt (v : Byte) (j : Nat) : (s.setScale v).redAt j = s.redAt j := rfl
@[simp] theorem State.setPixlen_redAt (v : Nat) (j : Nat) : (s.setPixlen v).redAt j = s.redAt j := rfl
@[simp] theorem State.setRedlen_redAt (v : Nat) (j : Nat) : (s.setRedlen v).redAt j = s.redAt j := rfl
@[simp] theorem State.setFramelen_redAt (v : Nat) (j : Nat) : (s.setFramelen v).redAt j = s.redAt j := rfl
@[simp] theorem State.setStatus_redAt (v : Status) (j : Nat) : (s.setStatus v).redAt j = s.redAt j := rfl
@[simp] theorem State.setScan_redAt (v : Scan) (j : Nat) : (s.setScan v).redAt j = s.redAt j := rfl
@[simp] theorem State.setTmp_redAt (v : Temps) (j : Nat) : (s.setTmp v).redAt j = s.redAt j := rfl
@[simp] theorem State.setHost_redAt (v : List HostOp) (j : Nat) : (s.setHost v).redAt j = s.redAt j := rfl
@[simp] theorem State.setHeard_redAt (v : Option Nat) (j : Nat) : (s.setHeard v).redAt j = s.redAt j := rfl
@[simp] theorem State.setAwaits_redAt (v : Bool) (j : Nat) : (s.setAwaits v).redAt j = s.redAt j := rfl

@[simp] theorem State.putPix_frameAt (k : Nat) (v : Byte) (j : Nat) : (s.putPix k v).frameAt j = s.frameAt j := rfl
@[simp] theorem State.putWork_frameAt (k : Nat) (v : Int) (j : Nat) : (s.putWork k v).frameAt j = s.frameAt j := rfl
@[simp] theorem State.putRed_frameAt (k : Nat) (v : Byte) (j : Nat) : (s.putRed k v).frameAt j = s.frameAt j := rfl
@[simp] theorem State.setWidth_frameAt (v : Word32) (j : Nat) : (s.setWidth v).frameAt j = s.frameAt j := rfl
@[simp] theorem State.setHeight_frameAt (v : Word32) (j : Nat) : (s.setHeight v).frameAt j = s.frameAt j := rfl
@[simp] theorem State.setContrast_frameAt (v : Byte) (j : Nat) : (s.setContrast v).frameAt j = s.frameAt j := rfl
@[simp] theorem State.setScale_frameAt (v : Byte) (j : Nat) : (s.setScale v).frameAt j = s.frameAt j := rfl
@[simp] theorem State.setPixlen_frameAt (v : Nat) (j : Nat) : (s.setPixlen v).frameAt j = s.frameAt j := rfl
@[simp] theorem State.setRedlen_frameAt (v : Nat) (j : Nat) : (s.setRedlen v).frameAt j = s.frameAt j := rfl
@[simp] theorem State.setFramelen_frameAt (v : Nat) (j : Nat) : (s.setFramelen v).frameAt j = s.frameAt j := rfl
@[simp] theorem State.setStatus_frameAt (v : Status) (j : Nat) : (s.setStatus v).frameAt j = s.frameAt j := rfl
@[simp] theorem State.setScan_frameAt (v : Scan) (j : Nat) : (s.setScan v).frameAt j = s.frameAt j := rfl
@[simp] theorem State.setTmp_frameAt (v : Temps) (j : Nat) : (s.setTmp v).frameAt j = s.frameAt j := rfl
@[simp] theorem State.setHost_frameAt (v : List HostOp) (j : Nat) : (s.setHost v).frameAt j = s.frameAt j := rfl
@[simp] theorem State.setHeard_frameAt (v : Option Nat) (j : Nat) : (s.setHeard v).frameAt j = s.frameAt j := rfl
@[simp] theorem State.setAwaits_frameAt (v : Bool) (j : Nat) : (s.setAwaits v).frameAt j = s.frameAt j := rfl

@[simp] theorem State.putPix_workAt (k : Nat) (v : Byte) (j : Nat) : (s.putPix k v).workAt j = s.workAt j := rfl
@[simp] theorem State.putRed_workAt (k : Nat) (v : Byte) (j : Nat) : (s.putRed k v).workAt j = s.workAt j := rfl
@[simp] theorem State.putFrame_workAt (k : Nat) (v : Byte) (j : Nat) : (s.putFrame k v).workAt j = s.workAt j := rfl
@[simp] theorem State.setWidth_workAt (v : Word32) (j : Nat) : (s.setWidth v).workAt j = s.workAt j := rfl
@[simp] theorem State.setHeight_workAt (v : Word32) (j : Nat) : (s.setHeight v).workAt j = s.workAt j := rfl
@[simp] theorem State.setContrast_workAt (v : Byte) (j : Nat) : (s.setContrast v).workAt j = s.workAt j := rfl
@[simp] theorem State.setScale_workAt (v : Byte) (j : Nat) : (s.setScale v).workAt j = s.workAt j := rfl
@[simp] theorem State.setPixlen_workAt (v : Nat) (j : Nat) : (s.setPixlen v).workAt j = s.workAt j := rfl
@[simp] theorem State.setRedlen_workAt (v : Nat) (j : Nat) : (s.setRedlen v).workAt j = s.workAt j := rfl
@[simp] theorem State.setFramelen_workAt (v : Nat) (j : Nat) : (s.setFramelen v).workAt j = s.workAt j := rfl
@[simp] theorem State.setStatus_workAt (v : Status) (j : Nat) : (s.setStatus v).workAt j = s.workAt j := rfl
@[simp] theorem State.setScan_workAt (v : Scan) (j : Nat) : (s.setScan v).workAt j = s.workAt j := rfl
@[simp] theorem State.setTmp_workAt (v : Temps) (j : Nat) : (s.setTmp v).workAt j = s.workAt j := rfl
@[simp] theorem State.setHost_workAt (v : List HostOp) (j : Nat) : (s.setHost v).workAt j = s.workAt j := rfl
@[simp] theorem State.setHeard_workAt (v : Option Nat) (j : Nat) : (s.setHeard v).workAt j = s.workAt j := rfl
@[simp] theorem State.setAwaits_workAt (v : Bool) (j : Nat) : (s.setAwaits v).workAt j = s.workAt j := rfl

@[simp] theorem State.putPix_pixels (k : Nat) (v : Byte) : (s.putPix k v).pixels = s.pixels := rfl
@[simp] theorem State.putWork_pixels (k : Nat) (v : Int) : (s.putWork k v).pixels = s.pixels := rfl
@[simp] theorem State.putRed_pixels (k : Nat) (v : Byte) : (s.putRed k v).pixels = s.pixels := rfl
@[simp] theorem State.putFrame_pixels (k : Nat) (v : Byte) : (s.putFrame k v).pixels = s.pixels := rfl
@[simp] theorem State.setContrast_pixels (v : Byte) : (s.setContrast v).pixels = s.pixels := rfl
@[simp] theorem State.setScale_pixels (v : Byte) : (s.setScale v).pixels = s.pixels := rfl
@[simp] theorem State.setPixlen_pixels (v : Nat) : (s.setPixlen v).pixels = s.pixels := rfl
@[simp] theorem State.setRedlen_pixels (v : Nat) : (s.setRedlen v).pixels = s.pixels := rfl
@[simp] theorem State.setFramelen_pixels (v : Nat) : (s.setFramelen v).pixels = s.pixels := rfl
@[simp] theorem State.setStatus_pixels (v : Status) : (s.setStatus v).pixels = s.pixels := rfl
@[simp] theorem State.setScan_pixels (v : Scan) : (s.setScan v).pixels = s.pixels := rfl
@[simp] theorem State.setTmp_pixels (v : Temps) : (s.setTmp v).pixels = s.pixels := rfl
@[simp] theorem State.setHost_pixels (v : List HostOp) : (s.setHost v).pixels = s.pixels := rfl
@[simp] theorem State.setHeard_pixels (v : Option Nat) : (s.setHeard v).pixels = s.pixels := rfl
@[simp] theorem State.setAwaits_pixels (v : Bool) : (s.setAwaits v).pixels = s.pixels := rfl

@[simp] theorem State.putPix_packedBytes (k : Nat) (v : Byte) : (s.putPix k v).packedBytes = s.packedBytes := rfl
@[simp] theorem State.putWork_packedBytes (k : Nat) (v : Int) : (s.putWork k v).packedBytes = s.packedBytes := rfl
@[simp] theorem State.putRed_packedBytes (k : Nat) (v : Byte) : (s.putRed k v).packedBytes = s.packedBytes := rfl
@[simp] theorem State.putFrame_packedBytes (k : Nat) (v : Byte) : (s.putFrame k v).packedBytes = s.packedBytes := rfl
@[simp] theorem State.setContrast_packedBytes (v : Byte) : (s.setContrast v).packedBytes = s.packedBytes := rfl
@[simp] theorem State.setScale_packedBytes (v : Byte) : (s.setScale v).packedBytes = s.packedBytes := rfl
@[simp] theorem State.setPixlen_packedBytes (v : Nat) : (s.setPixlen v).packedBytes = s.packedBytes := rfl
@[simp] theorem State.setRedlen_packedBytes (v : Nat) : (s.setRedlen v).packedBytes = s.packedBytes := rfl
@[simp] theorem State.setFramelen_packedBytes (v : Nat) : (s.setFramelen v).packedBytes = s.packedBytes := rfl
@[simp] theorem State.setStatus_packedBytes (v : Status) : (s.setStatus v).packedBytes = s.packedBytes := rfl
@[simp] theorem State.setScan_packedBytes (v : Scan) : (s.setScan v).packedBytes = s.packedBytes := rfl
@[simp] theorem State.setTmp_packedBytes (v : Temps) : (s.setTmp v).packedBytes = s.packedBytes := rfl
@[simp] theorem State.setHost_packedBytes (v : List HostOp) : (s.setHost v).packedBytes = s.packedBytes := rfl
@[simp] theorem State.setHeard_packedBytes (v : Option Nat) : (s.setHeard v).packedBytes = s.packedBytes := rfl
@[simp] theorem State.setAwaits_packedBytes (v : Bool) : (s.setAwaits v).packedBytes = s.packedBytes := rfl

@[simp] theorem State.putPix_entry (k : Nat) (v : Byte) (j : Nat) : (s.putPix k v).entry j = s.entry j := rfl
@[simp] theorem State.putWork_entry (k : Nat) (v : Int) (j : Nat) : (s.putWork k v).entry j = s.entry j := rfl
@[simp] theorem State.putFrame_entry (k : Nat) (v : Byte) (j : Nat) : (s.putFrame k v).entry j = s.entry j := rfl
@[simp] theorem State.setContrast_entry (v : Byte) (j : Nat) : (s.setContrast v).entry j = s.entry j := rfl
@[simp] theorem State.setScale_entry (v : Byte) (j : Nat) : (s.setScale v).entry j = s.entry j := rfl
@[simp] theorem State.setPixlen_entry (v : Nat) (j : Nat) : (s.setPixlen v).entry j = s.entry j := rfl
@[simp] theorem State.setRedlen_entry (v : Nat) (j : Nat) : (s.setRedlen v).entry j = s.entry j := rfl
@[simp] theorem State.setFramelen_entry (v : Nat) (j : Nat) : (s.setFramelen v).entry j = s.entry j := rfl
@[simp] theorem State.setStatus_entry (v : Status) (j : Nat) : (s.setStatus v).entry j = s.entry j := rfl
@[simp] theorem State.setScan_entry (v : Scan) (j : Nat) : (s.setScan v).entry j = s.entry j := rfl
@[simp] theorem State.setTmp_entry (v : Temps) (j : Nat) : (s.setTmp v).entry j = s.entry j := rfl
@[simp] theorem State.setHost_entry (v : List HostOp) (j : Nat) : (s.setHost v).entry j = s.entry j := rfl
@[simp] theorem State.setHeard_entry (v : Option Nat) (j : Nat) : (s.setHeard v).entry j = s.entry j := rfl
@[simp] theorem State.setAwaits_entry (v : Bool) (j : Nat) : (s.setAwaits v).entry j = s.entry j := rfl

@[simp] theorem State.putPix_reducerCheck (k : Nat) (v : Byte) : (s.putPix k v).reducerCheck = s.reducerCheck := rfl
@[simp] theorem State.putWork_reducerCheck (k : Nat) (v : Int) : (s.putWork k v).reducerCheck = s.reducerCheck := rfl
@[simp] theorem State.putRed_reducerCheck (k : Nat) (v : Byte) : (s.putRed k v).reducerCheck = s.reducerCheck := rfl
@[simp] theorem State.putFrame_reducerCheck (k : Nat) (v : Byte) : (s.putFrame k v).reducerCheck = s.reducerCheck := rfl
@[simp] theorem State.setContrast_reducerCheck (v : Byte) : (s.setContrast v).reducerCheck = s.reducerCheck := rfl
@[simp] theorem State.setScale_reducerCheck (v : Byte) : (s.setScale v).reducerCheck = s.reducerCheck := rfl
@[simp] theorem State.setRedlen_reducerCheck (v : Nat) : (s.setRedlen v).reducerCheck = s.reducerCheck := rfl
@[simp] theorem State.setFramelen_reducerCheck (v : Nat) : (s.setFramelen v).reducerCheck = s.reducerCheck := rfl
@[simp] theorem State.setStatus_reducerCheck (v : Status) : (s.setStatus v).reducerCheck = s.reducerCheck := rfl
@[simp] theorem State.setScan_reducerCheck (v : Scan) : (s.setScan v).reducerCheck = s.reducerCheck := rfl
@[simp] theorem State.setTmp_reducerCheck (v : Temps) : (s.setTmp v).reducerCheck = s.reducerCheck := rfl
@[simp] theorem State.setHost_reducerCheck (v : List HostOp) : (s.setHost v).reducerCheck = s.reducerCheck := rfl
@[simp] theorem State.setHeard_reducerCheck (v : Option Nat) : (s.setHeard v).reducerCheck = s.reducerCheck := rfl
@[simp] theorem State.setAwaits_reducerCheck (v : Bool) : (s.setAwaits v).reducerCheck = s.reducerCheck := rfl

@[simp] theorem State.putPix_encoderCheck (k : Nat) (v : Byte) : (s.putPix k v).encoderCheck = s.encoderCheck := rfl
@[simp] theorem State.putWork_encoderCheck (k : Nat) (v : Int) : (s.putWork k v).encoderCheck = s.encoderCheck := rfl
@[simp] theorem State.putRed_encoderCheck (k : Nat) (v : Byte) : (s.putRed k v).encoderCheck = s.encoderCheck := rfl
@[simp] theorem State.putFrame_encoderCheck (k : Nat) (v : Byte) : (s.putFrame k v).encoderCheck = s.encoderCheck := rfl
@[simp] theorem State.setContrast_encoderCheck (v : Byte) : (s.setContrast v).encoderCheck = s.encoderCheck := rfl
@[simp] theorem State.setPixlen_encoderCheck (v : Nat) : (s.setPixlen v).encoderCheck = s.encoderCheck := rfl
@[simp] theorem State.setFramelen_encoderCheck (v : Nat) : (s.setFramelen v).encoderCheck = s.encoderCheck := rfl
@[simp] theorem State.setStatus_encoderCheck (v : Status) : (s.setStatus v).encoderCheck = s.encoderCheck := rfl
@[simp] theorem State.setScan_encoderCheck (v : Scan) : (s.setScan v).encoderCheck = s.encoderCheck := rfl
@[simp] theorem State.setTmp_encoderCheck (v : Temps) : (s.setTmp v).encoderCheck = s.encoderCheck := rfl
@[simp] theorem State.setHost_encoderCheck (v : List HostOp) : (s.setHost v).encoderCheck = s.encoderCheck := rfl
@[simp] theorem State.setHeard_encoderCheck (v : Option Nat) : (s.setHeard v).encoderCheck = s.encoderCheck := rfl
@[simp] theorem State.setAwaits_encoderCheck (v : Bool) : (s.setAwaits v).encoderCheck = s.encoderCheck := rfl

-- Raising a fault, beginning and completing a command, and the host's read of STATUS.
@[simp] theorem State.raise_cfg (c : LaunchFault) : (s.raise c).cfg = s.cfg := rfl
@[simp] theorem State.raise_serial (c : LaunchFault) : (s.raise c).serial = s.serial := rfl
@[simp] theorem State.raise_width (c : LaunchFault) : (s.raise c).width = s.width := rfl
@[simp] theorem State.raise_height (c : LaunchFault) : (s.raise c).height = s.height := rfl
@[simp] theorem State.raise_contrast (c : LaunchFault) : (s.raise c).contrast = s.contrast := rfl
@[simp] theorem State.raise_scale (c : LaunchFault) : (s.raise c).scale = s.scale := rfl
@[simp] theorem State.raise_pixlen (c : LaunchFault) : (s.raise c).pixlen = s.pixlen := rfl
@[simp] theorem State.raise_redlen (c : LaunchFault) : (s.raise c).redlen = s.redlen := rfl
@[simp] theorem State.raise_framelen (c : LaunchFault) : (s.raise c).framelen = s.framelen := rfl
@[simp] theorem State.raise_status (c : LaunchFault) : (s.raise c).status = .fault c := rfl
@[simp] theorem State.raise_pix (c : LaunchFault) : (s.raise c).pix = s.pix := rfl
@[simp] theorem State.raise_work (c : LaunchFault) : (s.raise c).work = s.work := rfl
@[simp] theorem State.raise_red (c : LaunchFault) : (s.raise c).red = s.red := rfl
@[simp] theorem State.raise_frame (c : LaunchFault) : (s.raise c).frame = s.frame := rfl
@[simp] theorem State.raise_scan (c : LaunchFault) : (s.raise c).scan = s.scan := rfl
@[simp] theorem State.raise_tmp (c : LaunchFault) : (s.raise c).tmp = s.tmp := rfl
@[simp] theorem State.raise_epoch (c : LaunchFault) : (s.raise c).epoch = s.epoch := rfl
@[simp] theorem State.raise_host (c : LaunchFault) : (s.raise c).host = s.host := rfl
@[simp] theorem State.raise_heard (c : LaunchFault) : (s.raise c).heard = s.heard := rfl
@[simp] theorem State.raise_awaits (c : LaunchFault) : (s.raise c).awaits = s.awaits := rfl
@[simp] theorem State.raise_pixAt (c : LaunchFault) (j : Nat) : (s.raise c).pixAt j = s.pixAt j := rfl
@[simp] theorem State.raise_redAt (c : LaunchFault) (j : Nat) : (s.raise c).redAt j = s.redAt j := rfl
@[simp] theorem State.raise_frameAt (c : LaunchFault) (j : Nat) : (s.raise c).frameAt j = s.frameAt j := rfl
@[simp] theorem State.raise_workAt (c : LaunchFault) (j : Nat) : (s.raise c).workAt j = s.workAt j := rfl
@[simp] theorem State.raise_pixels (c : LaunchFault) : (s.raise c).pixels = s.pixels := rfl
@[simp] theorem State.raise_packedBytes (c : LaunchFault) : (s.raise c).packedBytes = s.packedBytes := rfl
@[simp] theorem State.raise_entry (c : LaunchFault) (j : Nat) : (s.raise c).entry j = s.entry j := rfl
@[simp] theorem State.raise_reducerCheck (c : LaunchFault) : (s.raise c).reducerCheck = s.reducerCheck := rfl
@[simp] theorem State.raise_encoderCheck (c : LaunchFault) : (s.raise c).encoderCheck = s.encoderCheck := rfl

@[simp] theorem State.begin_cfg : (s.begin).cfg = s.cfg := rfl
@[simp] theorem State.begin_serial : (s.begin).serial = s.serial := rfl
@[simp] theorem State.begin_width : (s.begin).width = s.width := rfl
@[simp] theorem State.begin_height : (s.begin).height = s.height := rfl
@[simp] theorem State.begin_contrast : (s.begin).contrast = s.contrast := rfl
@[simp] theorem State.begin_scale : (s.begin).scale = s.scale := rfl
@[simp] theorem State.begin_pixlen : (s.begin).pixlen = s.pixlen := rfl
@[simp] theorem State.begin_redlen : (s.begin).redlen = s.redlen := rfl
@[simp] theorem State.begin_framelen : (s.begin).framelen = s.framelen := rfl
@[simp] theorem State.begin_status : (s.begin).status = .busy := rfl
@[simp] theorem State.begin_pix : (s.begin).pix = s.pix := rfl
@[simp] theorem State.begin_work : (s.begin).work = s.work := rfl
@[simp] theorem State.begin_red : (s.begin).red = s.red := rfl
@[simp] theorem State.begin_frame : (s.begin).frame = s.frame := rfl
@[simp] theorem State.begin_scan : (s.begin).scan = s.scan := rfl
@[simp] theorem State.begin_tmp : (s.begin).tmp = s.tmp := rfl
@[simp] theorem State.begin_epoch : (s.begin).epoch = s.epoch := rfl
@[simp] theorem State.begin_host : (s.begin).host = s.host := rfl
@[simp] theorem State.begin_heard : (s.begin).heard = s.heard := rfl
@[simp] theorem State.begin_awaits : (s.begin).awaits = s.awaits := rfl
@[simp] theorem State.begin_pixAt (j : Nat) : (s.begin).pixAt j = s.pixAt j := rfl
@[simp] theorem State.begin_redAt (j : Nat) : (s.begin).redAt j = s.redAt j := rfl
@[simp] theorem State.begin_frameAt (j : Nat) : (s.begin).frameAt j = s.frameAt j := rfl
@[simp] theorem State.begin_workAt (j : Nat) : (s.begin).workAt j = s.workAt j := rfl
@[simp] theorem State.begin_pixels : (s.begin).pixels = s.pixels := rfl
@[simp] theorem State.begin_packedBytes : (s.begin).packedBytes = s.packedBytes := rfl
@[simp] theorem State.begin_entry (j : Nat) : (s.begin).entry j = s.entry j := rfl
@[simp] theorem State.begin_reducerCheck : (s.begin).reducerCheck = s.reducerCheck := rfl
@[simp] theorem State.begin_encoderCheck : (s.begin).encoderCheck = s.encoderCheck := rfl

@[simp] theorem State.complete_cfg : (s.complete).cfg = s.cfg := rfl
@[simp] theorem State.complete_serial : (s.complete).serial = s.serial := rfl
@[simp] theorem State.complete_width : (s.complete).width = s.width := rfl
@[simp] theorem State.complete_height : (s.complete).height = s.height := rfl
@[simp] theorem State.complete_contrast : (s.complete).contrast = s.contrast := rfl
@[simp] theorem State.complete_scale : (s.complete).scale = s.scale := rfl
@[simp] theorem State.complete_pixlen : (s.complete).pixlen = s.pixlen := rfl
@[simp] theorem State.complete_redlen : (s.complete).redlen = s.redlen := rfl
@[simp] theorem State.complete_framelen : (s.complete).framelen = s.framelen := rfl
@[simp] theorem State.complete_status : (s.complete).status = .done := rfl
@[simp] theorem State.complete_pix : (s.complete).pix = s.pix := rfl
@[simp] theorem State.complete_work : (s.complete).work = s.work := rfl
@[simp] theorem State.complete_red : (s.complete).red = s.red := rfl
@[simp] theorem State.complete_frame : (s.complete).frame = s.frame := rfl
@[simp] theorem State.complete_scan : (s.complete).scan = .idle := rfl
@[simp] theorem State.complete_tmp : (s.complete).tmp = Temps.dead := rfl
@[simp] theorem State.complete_epoch : (s.complete).epoch = s.epoch := rfl
@[simp] theorem State.complete_host : (s.complete).host = s.host := rfl
@[simp] theorem State.complete_heard : (s.complete).heard = s.heard := rfl
@[simp] theorem State.complete_awaits : (s.complete).awaits = s.awaits := rfl
@[simp] theorem State.complete_pixAt (j : Nat) : (s.complete).pixAt j = s.pixAt j := rfl
@[simp] theorem State.complete_redAt (j : Nat) : (s.complete).redAt j = s.redAt j := rfl
@[simp] theorem State.complete_frameAt (j : Nat) : (s.complete).frameAt j = s.frameAt j := rfl
@[simp] theorem State.complete_workAt (j : Nat) : (s.complete).workAt j = s.workAt j := rfl
@[simp] theorem State.complete_pixels : (s.complete).pixels = s.pixels := rfl
@[simp] theorem State.complete_packedBytes : (s.complete).packedBytes = s.packedBytes := rfl
@[simp] theorem State.complete_entry (j : Nat) : (s.complete).entry j = s.entry j := rfl
@[simp] theorem State.complete_reducerCheck : (s.complete).reducerCheck = s.reducerCheck := rfl
@[simp] theorem State.complete_encoderCheck : (s.complete).encoderCheck = s.encoderCheck := rfl

@[simp] theorem State.readStatus_cfg : (s.readStatus).cfg = s.cfg := rfl
@[simp] theorem State.readStatus_serial : (s.readStatus).serial = s.serial := rfl
@[simp] theorem State.readStatus_width : (s.readStatus).width = s.width := rfl
@[simp] theorem State.readStatus_height : (s.readStatus).height = s.height := rfl
@[simp] theorem State.readStatus_contrast : (s.readStatus).contrast = s.contrast := rfl
@[simp] theorem State.readStatus_scale : (s.readStatus).scale = s.scale := rfl
@[simp] theorem State.readStatus_pixlen : (s.readStatus).pixlen = s.pixlen := rfl
@[simp] theorem State.readStatus_redlen : (s.readStatus).redlen = s.redlen := rfl
@[simp] theorem State.readStatus_framelen : (s.readStatus).framelen = s.framelen := rfl
@[simp] theorem State.readStatus_status : (s.readStatus).status = s.status := rfl
@[simp] theorem State.readStatus_pix : (s.readStatus).pix = s.pix := rfl
@[simp] theorem State.readStatus_work : (s.readStatus).work = s.work := rfl
@[simp] theorem State.readStatus_red : (s.readStatus).red = s.red := rfl
@[simp] theorem State.readStatus_frame : (s.readStatus).frame = s.frame := rfl
@[simp] theorem State.readStatus_scan : (s.readStatus).scan = s.scan := rfl
@[simp] theorem State.readStatus_tmp : (s.readStatus).tmp = s.tmp := rfl
@[simp] theorem State.readStatus_epoch : (s.readStatus).epoch = s.epoch := rfl
@[simp] theorem State.readStatus_host : (s.readStatus).host = s.host := rfl
@[simp] theorem State.readStatus_heard : (s.readStatus).heard = some s.status.byte.toNat := rfl
@[simp] theorem State.readStatus_awaits : (s.readStatus).awaits = (s.awaits && decide (s.status = .busy)) := rfl
@[simp] theorem State.readStatus_pixAt (j : Nat) : (s.readStatus).pixAt j = s.pixAt j := rfl
@[simp] theorem State.readStatus_redAt (j : Nat) : (s.readStatus).redAt j = s.redAt j := rfl
@[simp] theorem State.readStatus_frameAt (j : Nat) : (s.readStatus).frameAt j = s.frameAt j := rfl
@[simp] theorem State.readStatus_workAt (j : Nat) : (s.readStatus).workAt j = s.workAt j := rfl
@[simp] theorem State.readStatus_pixels : (s.readStatus).pixels = s.pixels := rfl
@[simp] theorem State.readStatus_packedBytes : (s.readStatus).packedBytes = s.packedBytes := rfl
@[simp] theorem State.readStatus_entry (j : Nat) : (s.readStatus).entry j = s.entry j := rfl
@[simp] theorem State.readStatus_reducerCheck : (s.readStatus).reducerCheck = s.reducerCheck := rfl
@[simp] theorem State.readStatus_encoderCheck : (s.readStatus).encoderCheck = s.encoderCheck := rfl

-- A later update of a field overrides an earlier one; the host's fields in one order.
@[simp] theorem State.setWidth_setWidth (v w : Word32) : (s.setWidth v).setWidth w = s.setWidth w := rfl
@[simp] theorem State.setHeight_setHeight (v w : Word32) : (s.setHeight v).setHeight w = s.setHeight w := rfl
@[simp] theorem State.setContrast_setContrast (v w : Byte) : (s.setContrast v).setContrast w = s.setContrast w := rfl
@[simp] theorem State.setScale_setScale (v w : Byte) : (s.setScale v).setScale w = s.setScale w := rfl
@[simp] theorem State.setPixlen_setPixlen (v w : Nat) : (s.setPixlen v).setPixlen w = s.setPixlen w := rfl
@[simp] theorem State.setRedlen_setRedlen (v w : Nat) : (s.setRedlen v).setRedlen w = s.setRedlen w := rfl
@[simp] theorem State.setFramelen_setFramelen (v w : Nat) : (s.setFramelen v).setFramelen w = s.setFramelen w := rfl
@[simp] theorem State.setStatus_setStatus (v w : Status) : (s.setStatus v).setStatus w = s.setStatus w := rfl
@[simp] theorem State.setScan_setScan (v w : Scan) : (s.setScan v).setScan w = s.setScan w := rfl
@[simp] theorem State.setTmp_setTmp (v w : Temps) : (s.setTmp v).setTmp w = s.setTmp w := rfl
@[simp] theorem State.setHost_setHost (v w : List HostOp) : (s.setHost v).setHost w = s.setHost w := rfl
@[simp] theorem State.setHeard_setHeard (v w : Option Nat) : (s.setHeard v).setHeard w = s.setHeard w := rfl
@[simp] theorem State.setAwaits_setAwaits (v w : Bool) : (s.setAwaits v).setAwaits w = s.setAwaits w := rfl
@[simp] theorem State.setHeard_setHost (x : Option Nat) (l : List HostOp) :
    (s.setHeard x).setHost l = (s.setHost l).setHeard x := rfl
@[simp] theorem State.setAwaits_setHost (a : Bool) (l : List HostOp) :
    (s.setAwaits a).setHost l = (s.setHost l).setAwaits a := rfl
@[simp] theorem State.setAwaits_setHeard (a : Bool) (x : Option Nat) :
    (s.setAwaits a).setHeard x = (s.setHeard x).setAwaits a := rfl

end Sys2Proof.Machine
end

