-- ==== Sys2Proof/Laws/Memory.lean ====
section
/-! SUPPORT. The laws of element storage: a read after a write gives the value written, a write leaves every other element
alone and keeps the canonical form, and so do the updates of a state. -/

namespace Sys2Proof.Machine

section Lists

variable {α : Type}

@[simp] theorem Memory.get?_nil (k : Nat) : Memory.get? ([] : List (Nat × α)) k = none := rfl

theorem Memory.get?_cons (a : Nat) (x : α) (m : List (Nat × α)) (k : Nat) :
    Memory.get? ((a, x) :: m) k = if a = k then some x else Memory.get? m k := rfl

@[simp] theorem Memory.get?_put_self (m : List (Nat × α)) (k : Nat) (x : α) :
    Memory.get? (Memory.put m k x) k = some x := by
  induction m with
  | nil => simp [Memory.put, Memory.get?]
  | cons c m ih =>
    obtain ⟨a, y⟩ := c
    simp only [Memory.put]
    split
    · simp [Memory.get?]
    · split
      · simp [Memory.get?]
      · simp only [Memory.get?, ih, ite_eq_right_iff]
        intro h; omega

theorem Memory.get?_put_of_ne (m : List (Nat × α)) {k j : Nat} (x : α) (h : j ≠ k) :
    Memory.get? (Memory.put m k x) j = Memory.get? m j := by
  induction m with
  | nil => simp [Memory.put, Memory.get?, Ne.symm h]
  | cons c m ih =>
    obtain ⟨a, y⟩ := c
    simp only [Memory.put]
    split
    · simp [Memory.get?, Ne.symm h]
    · split
      · subst_vars; simp [Memory.get?, Ne.symm h]
      · simp only [Memory.get?, ih]

theorem Memory.get?_put (m : List (Nat × α)) (k j : Nat) (x : α) :
    Memory.get? (Memory.put m k x) j = if j = k then some x else Memory.get? m j := by
  by_cases h : j = k
  · subst h; simp
  · simp [h, Memory.get?_put_of_ne]

theorem Memory.isSome_get?_put {m : List (Nat × α)} {j : Nat} (k : Nat) (x : α)
    (h : (Memory.get? m j).isSome = true) : (Memory.get? (Memory.put m k x) j).isSome = true := by
  rw [Memory.get?_put]; split <;> simp [h]

theorem Memory.mem_put {m : List (Nat × α)} {k : Nat} {x : α} {c : Nat × α} (h : c ∈ Memory.put m k x) :
    c = (k, x) ∨ c ∈ m := by
  induction m with
  | nil => simpa [Memory.put] using h
  | cons d m ih =>
    obtain ⟨a, y⟩ := d
    simp only [Memory.put] at h
    split at h
    · simpa using h
    · split at h
      · simp only [List.mem_cons] at h ⊢; tauto
      · rcases List.mem_cons.mp h with h | h
        · exact .inr (List.mem_cons.mpr (.inl h))
        · rcases ih h with h | h
          · exact .inl h
          · exact .inr (List.mem_cons.mpr (.inr h))

/-- The canonical form, as the sortedness of the indices. -/
theorem Memory.wf_iff_pairwise (m : List (Nat × α)) : Memory.wf m = true ↔ (m.map Prod.fst).Pairwise (· < ·) := by
  induction m with
  | nil => simp [Memory.wf]
  | cons c m ih =>
    obtain ⟨a, x⟩ := c
    cases m with
    | nil => simp [Memory.wf]
    | cons d m =>
      obtain ⟨b, y⟩ := d
      simp only [Memory.wf, Bool.and_eq_true, decide_eq_true_eq, ih]
      simp only [List.map_cons, List.pairwise_cons, List.mem_cons, forall_eq_or_imp]
      constructor
      · rintro ⟨hab, hb, hm⟩
        exact ⟨⟨hab, fun z hz => lt_trans hab (hb z hz)⟩, hb, hm⟩
      · rintro ⟨⟨hab, -⟩, hb, hm⟩
        exact ⟨hab, hb, hm⟩

/-- Every write keeps the canonical form. -/
theorem Memory.wf_put {m : List (Nat × α)} (k : Nat) (x : α) (h : Memory.wf m = true) :
    Memory.wf (Memory.put m k x) = true := by
  rw [Memory.wf_iff_pairwise] at h ⊢
  induction m with
  | nil => simp [Memory.put]
  | cons c m ih =>
    obtain ⟨a, y⟩ := c
    simp only [List.map_cons, List.pairwise_cons] at h
    simp only [Memory.put]
    split
    · next hlt =>
      simp only [List.map_cons, List.pairwise_cons, List.mem_cons, forall_eq_or_imp]
      exact ⟨⟨hlt, fun z hz => lt_trans hlt (h.1 z hz)⟩, h⟩
    · split
      · next heq => subst heq; simpa using h
      · next hge hne =>
        simp only [List.map_cons, List.pairwise_cons]
        refine ⟨?_, ih h.2⟩
        intro z hz
        obtain ⟨c, hc, rfl⟩ := List.mem_map.mp hz
        rcases Memory.mem_put hc with rfl | hc
        · show a < k; omega
        · exact h.1 _ (List.mem_map_of_mem hc)

/-- A write of an existing element stays within the buffer. -/
theorem Memory.within_put {m : List (Nat × α)} {k size : Nat} (x : α) (hk : k < size)
    (h : Memory.within m size = true) : Memory.within (Memory.put m k x) size = true := by
  simp only [Memory.within, List.all_eq_true, decide_eq_true_eq] at h ⊢
  intro c hc
  rcases Memory.mem_put hc with rfl | hc
  · exact hk
  · exact h c hc

theorem Memory.aligned_put {m : List (Nat × α)} {k : Nat} (x : α) (hk : k % 4 = 0) (h : ∀ c ∈ m, c.1 % 4 = 0) :
    ∀ c ∈ Memory.put m k x, c.1 % 4 = 0 := by
  intro c hc
  rcases Memory.mem_put hc with rfl | hc
  · exact hk
  · exact h c hc

end Lists

section Elements

variable (s : State)

theorem State.pixAt_putPix (k j : Nat) (v : Byte) : (s.putPix k v).pixAt j = if j = k then v else s.pixAt j := by
  simp only [State.pixAt, State.byteAt, State.cells, State.putPix, Memory.get?_put]
  split <;> rfl

theorem State.redAt_putRed (k j : Nat) (v : Byte) : (s.putRed k v).redAt j = if j = k then v else s.redAt j := by
  simp only [State.redAt, State.byteAt, State.cells, State.putRed, Memory.get?_put]
  split <;> rfl

theorem State.frameAt_putFrame (k j : Nat) (v : Byte) :
    (s.putFrame k v).frameAt j = if j = k then v else s.frameAt j := by
  simp only [State.frameAt, State.byteAt, State.cells, State.putFrame, Memory.get?_put]
  split <;> rfl

theorem State.workAt_putWork (k j : Nat) (v : Int) :
    (s.putWork k v).workAt j = if j = k then v else s.workAt j := by
  simp only [State.workAt, State.putWork, Memory.get?_put]
  split <;> rfl

/-- The state after reset lists nothing, so its memory is in canonical form. -/
theorem reset_memory_wf : Memory.wf State.reset.pix = true ∧ Memory.wf State.reset.work = true ∧
    Memory.wf State.reset.red = true ∧ Memory.wf State.reset.frame = true := ⟨rfl, rfl, rfl, rfl⟩

end Elements

end Sys2Proof.Machine
end

