-- ==== Sys2Proof/Laws/Ops.lean ====
section
/-! SUPPORT. What the shared operations can do: the loop of a pass, a launch, and the launch checks. -/

namespace Sys2Proof.Machine

@[simp] theorem loop_zero (body : Nat → State → State) (p : Nat) (s : State) : loop body 0 p s = s := rfl

theorem loop_succ (body : Nat → State → State) (n p : Nat) (s : State) :
    loop body (n + 1) p s = loop body n (p + 1) (body p s) := rfl

/-- The last item of a pass is done last. -/
theorem loop_succ_last (body : Nat → State → State) (n p : Nat) (s : State) :
    loop body (n + 1) p s = body (p + n) (loop body n p s) := by
  induction n generalizing p s with
  | zero => rfl
  | succ n ih => rw [loop_succ, ih, loop_succ, show p + 1 + n = p + (n + 1) by omega]

/-- What every item keeps, the pass keeps. -/
theorem loop_frame {β : Type} (f : State → β) {body : Nat → State → State} (h : ∀ p s, f (body p s) = f s)
    (n p : Nat) (s : State) : f (loop body n p s) = f s := by
  induction n generalizing p s with
  | zero => rfl
  | succ n ih => rw [loop_succ, ih, h]

/-- Induction along a pass that starts at item 0. -/
theorem loop_induction {body : Nat → State → State} (P : Nat → State → Prop) (s : State) (h0 : P 0 s)
    (hs : ∀ p t, P p t → P (p + 1) (body p t)) (n : Nat) : P n (loop body n 0 s) := by
  induction n with
  | zero => exact h0
  | succ n ih => rw [loop_succ_last, Nat.zero_add]; exact hs n _ ih

/-- Induction along a pass that starts at item 0 and has an end. -/
theorem loop_induction_to {body : Nat → State → State} (P : Nat → State → Prop) (s : State) (n : Nat) (h0 : P 0 s)
    (hs : ∀ p t, p < n → P p t → P (p + 1) (body p t)) : P n (loop body n 0 s) := by
  suffices h : ∀ m, m ≤ n → P m (loop body m 0 s) from h n le_rfl
  intro m hm
  induction m with
  | zero => exact h0
  | succ m ih => rw [loop_succ_last, Nat.zero_add]; exact hs m _ hm (ih (by omega))

theorem raise_begin (s : State) (c : LaunchFault) : s.begin.raise c = s.setStatus (.fault c) := rfl

/-- A launch either raises the fault its checks found, changing `STATUS` alone, or runs. -/
theorem launch_cases {s t : State} {check : Option LaunchFault} {run : State → State}
    (h : s.launch check run = .next t) :
    (∃ c, check = some c ∧ t = s.setStatus (.fault c)) ∨ (check = none ∧ t = run s.begin) := by
  cases check with
  | none => right; simpa [State.launch] using h.symm
  | some c => left; exact ⟨c, rfl, by simpa [State.launch, raise_begin] using h.symm⟩

theorem launch_fault (s : State) (c : LaunchFault) (run : State → State) :
    s.launch (some c) run = .next (s.setStatus (.fault c)) := rfl

theorem launch_run (s : State) (run : State → State) : s.launch none run = .next (run s.begin) := rfl

theorem reducerCheck_eq_none_iff (s : State) : s.reducerCheck = none ↔ s.ReducerReady := by
  unfold State.reducerCheck State.ReducerReady State.pixels
  split
  · next h => simp only [reduceCtorEq, false_iff]; tauto
  · next h =>
    split
    · next h2 => simp only [reduceCtorEq, false_iff]; omega
    · next h2 =>
      split
      · next h3 => simp only [reduceCtorEq, false_iff]; tauto
      · next h3 =>
        simp only [true_iff]; push Not at h h2 h3
        exact ⟨h.1, h.2, h2, h3⟩

theorem encoderCheck_eq_none_iff (s : State) : s.encoderCheck = none ↔ s.EncoderReady := by
  unfold State.encoderCheck State.EncoderReady State.pixels
  split
  · next h => simp only [reduceCtorEq, false_iff]; tauto
  · next h =>
    split
    · next h1 => simp only [reduceCtorEq, false_iff]; omega
    · next h1 =>
      split
      · next h2 => simp only [reduceCtorEq, false_iff]; omega
      · next h2 =>
        split
        · next h3 => simp only [reduceCtorEq, false_iff]; tauto
        · next h3 =>
          simp only [true_iff]; push Not at h h1 h2 h3
          exact ⟨h.1, h.2, h1, h2, h3⟩

/-- A command launched with its operands ready has at least one pixel. -/
theorem pixels_pos {s : State} (hw : s.width ≠ 0) (hh : s.height ≠ 0) : 0 < s.pixels := by
  refine Nat.mul_pos ?_ ?_ <;> refine Nat.pos_of_ne_zero fun h => ?_
  · exact hw (BitVec.eq_of_toNat_eq (by simpa using h))
  · exact hh (BitVec.eq_of_toNat_eq (by simpa using h))

end Sys2Proof.Machine
end

