-- ==== Sys2Proof/Laws/Formatter.lean ====
section
/-! SUPPORT. What one byte step of `ENC`, and its two loops, can do. -/

namespace Sys2Proof.Machine

/-- A packed byte is one write of `FRAME[8 + k]`. -/
theorem bitmapStep_eq (k : Nat) (s : State) : bitmapStep k s = s.putFrame (8 + k) (s.packedByte k) := rfl

/-- Writing the bitmap changes `FRAME` alone. -/
theorem bitmapLoop_only_frame (n k : Nat) (s : State) :
    loop bitmapStep n k s = { s with frame := (loop bitmapStep n k s).frame } := by
  induction n generalizing k s with
  | zero => rfl
  | succ n ih => rw [loop_succ, ih]; rfl

/-- A header byte is one write of `FRAME[k]`, after the header's temporaries. -/
theorem headerStep_eq (k : Nat) (s : State) :
    headerStep k s = (s.setTmp (headerTemps s)).putFrame k ((s.setTmp (headerTemps s)).headerByte k) := rfl

/-- Header byte `k` as the header's own temporaries give it (R176). -/
theorem headerByte_of_temps (s : State) (k : Nat) : (s.setTmp (headerTemps s)).headerByte k =
    match k with
    | 0 => s.cfg.opc0
    | 1 => s.cfg.opc1
    | 2 => s.cfg.opc2
    | 3 => s.scale
    | 4 => lowByte (columnField (bytesPerRow s.width.toNat))
    | 5 => highByte (columnField (bytesPerRow s.width.toNat))
    | 6 => lowByte (rowField s.height.toNat)
    | _ => highByte (rowField s.height.toNat) := by
  rcases k with _ | _ | _ | _ | _ | _ | _ | k <;> rfl

/-- A header step does not change what any header byte is. -/
theorem headerStep_headerByte (j k : Nat) (s : State) :
    ((headerStep j s).setTmp (headerTemps (headerStep j s))).headerByte k = (s.setTmp (headerTemps s)).headerByte k := by
  rw [headerByte_of_temps, headerByte_of_temps, headerStep_eq]
  simp only [State.putFrame_cfg, State.putFrame_scale, State.putFrame_width, State.putFrame_height, State.setTmp_cfg,
    State.setTmp_scale, State.setTmp_width, State.setTmp_height]

/-- After the header loop the bytes it wrote are the header's, and every other byte is kept. -/
theorem headerLoop_frameAt (n : Nat) (s : State) (j : Nat) :
    (loop headerStep n 0 s).frameAt j = if j < n then (s.setTmp (headerTemps s)).headerByte j else s.frameAt j := by
  have same : ∀ n k, ((loop headerStep n 0 s).setTmp (headerTemps (loop headerStep n 0 s))).headerByte k =
      (s.setTmp (headerTemps s)).headerByte k := by
    intro n k
    induction n with
    | zero => rfl
    | succ n ih => rw [loop_succ_last, headerStep_headerByte, ih]
  induction n with
  | zero => rw [loop_zero, if_neg (by omega)]
  | succ n ih =>
    rw [loop_succ_last, Nat.zero_add, headerStep_eq, State.frameAt_putFrame, same, State.setTmp_frameAt, ih]
    by_cases hj : j = n
    · rw [if_pos hj, if_pos (by omega), hj]
    · rw [if_neg hj]
      by_cases hr : j < n
      · rw [if_pos hr, if_pos (by omega)]
      · rw [if_neg hr, if_neg (by omega)]

/-- The header loop changes `FRAME` and the temporaries alone. -/
theorem headerLoop_only (n k : Nat) (s : State) :
    ∃ f m, loop headerStep n k s = { s with frame := f, tmp := m } := by
  induction n generalizing k s with
  | zero => exact ⟨s.frame, s.tmp, rfl⟩
  | succ n ih =>
    obtain ⟨f, m, h⟩ := ih (k + 1) (headerStep k s)
    exact ⟨f, m, by rw [loop_succ, h]; rfl⟩

/-- A packed byte depends on `WIDTH*HEIGHT` and the entries alone. -/
theorem packedByte_congr {s t : State} (h : ∀ q, t.entry q = s.entry q) (k : Nat) :
    t.packedByte k = s.packedByte k := by
  simp only [State.packedByte, h]

/-- After the bitmap loop, every byte at offset `8 + k` holds packed byte `k`, and every byte outside the bitmap is kept. -/
theorem bitmapLoop_frameAt (n : Nat) (s : State) (j : Nat) :
    (loop bitmapStep n 0 s).frameAt j = if 8 ≤ j ∧ j < 8 + n then s.packedByte (j - 8) else s.frameAt j := by
  induction n with
  | zero => rw [loop_zero, if_neg (by omega)]
  | succ n ih =>
    rw [loop_succ_last, Nat.zero_add, bitmapStep_eq, State.frameAt_putFrame, ih]
    have hp : (loop bitmapStep n 0 s).packedByte n = s.packedByte n :=
      packedByte_congr (fun q => by rw [bitmapLoop_only_frame]; rfl) n
    by_cases hj : j = 8 + n
    · rw [if_pos hj, if_pos (by omega), hp, hj, Nat.add_sub_cancel_left]
    · rw [if_neg hj]
      by_cases hr : 8 ≤ j ∧ j < 8 + n
      · rw [if_pos hr, if_pos (by omega)]
      · rw [if_neg hr, if_neg (by omega)]

/-- Every byte of the frame after `ENC`: the header, the packed bytes, and beyond them what was there (R176, R177). -/
theorem runEnc_frameAt (s : State) (j : Nat) : (runEnc s).frameAt j =
    if j < 8 then (s.setTmp (headerTemps s)).headerByte j
    else if j < 8 + s.packedBytes then s.packedByte (j - 8) else s.frameAt j := by
  have hf : (runEnc s).frameAt j = (loop bitmapStep s.packedBytes 0 (loop headerStep 8 0 s)).frameAt j := by
    simp only [runEnc, State.finishEncode, State.complete_frameAt, State.setFramelen_frameAt]
  have hp : ∀ k, (loop headerStep 8 0 s).packedByte k = s.packedByte k := by
    intro k
    obtain ⟨f, m, h⟩ := headerLoop_only 8 0 s
    exact packedByte_congr (fun q => by rw [h]; rfl) k
  rw [hf, bitmapLoop_frameAt, hp, headerLoop_frameAt]
  by_cases h : j < 8
  · rw [if_neg (by omega), if_pos h, if_pos h]
  · rw [if_neg h, if_neg h]
    by_cases h2 : j < 8 + s.packedBytes
    · rw [if_pos (by omega), if_pos h2]
    · rw [if_neg (by omega), if_neg h2]

/-- Bit `7 - j` of a packed byte is entry `j` of its group (R160). -/
theorem packedByte_getLsbD (s : State) (k j : Nat) (hj : j < 8) :
    (s.packedByte k).getLsbD (7 - j) = decide (s.entry (8 * k + j) ≠ 0) := by
  have h : ∀ x : Byte, entryBit x = (decide (x ≠ 0)).toNat := fun x => by unfold entryBit; split <;> simp_all
  have key : ∀ b0 b1 b2 b3 b4 b5 b6 b7 : Bool, ∀ j : Fin 8,
      (BitVec.ofNat 8 (b0.toNat * 128 + b1.toNat * 64 + b2.toNat * 32 + b3.toNat * 16 + b4.toNat * 8 + b5.toNat * 4
        + b6.toNat * 2 + b7.toNat)).getLsbD (7 - j) = [b0, b1, b2, b3, b4, b5, b6, b7][j] := by decide
  unfold State.packedByte pack8
  simp only [h]
  rw [key _ _ _ _ _ _ _ _ ⟨j, hj⟩]
  interval_cases j <;> rfl

end Sys2Proof.Machine
end

