-- ==== Sys2Proof/Laws/Reducer.lean ====
section
/-! SUPPORT. What one pixel of each reducer pass, and each whole pass, can do. -/

namespace Sys2Proof.Machine

/-- Pixel `p` of `RED.T` is one write of `RED[p]`. -/
theorem thresholdPixel_eq (p : Nat) (s : State) :
    thresholdPixel p s = s.putRed p (thr1 (s.redSample p) (s.greenSample p) (s.blueSample p) s.contrast) := rfl

/-- Pixel `p` of the luminance pass is one write of `WORK[4*p]`. -/
theorem lumPixel_eq (p : Nat) (s : State) :
    lumPixel p s = s.putWork (4 * p) (lum (s.redSample p) (s.greenSample p) (s.blueSample p)) := rfl

/-- A pass of `RED.T` changes `RED` alone. -/
theorem thresholdLoop_only_red (n p : Nat) (s : State) :
    loop thresholdPixel n p s = { s with red := (loop thresholdPixel n p s).red } := by
  induction n generalizing p s with
  | zero => rfl
  | succ n ih => rw [loop_succ, ih]; rfl

/-- After a pass of `RED.T` the entries below its count are decided by their own pixels; the others are kept (R131). -/
theorem thresholdLoop_redAt (n : Nat) (s : State) (k : Nat) : (loop thresholdPixel n 0 s).redAt k =
    if k < n then thr1 (s.redSample k) (s.greenSample k) (s.blueSample k) s.contrast else s.redAt k := by
  induction n with
  | zero => rw [loop_zero, if_neg (by omega)]
  | succ n ih =>
    rw [loop_succ_last, thresholdPixel_eq, State.redAt_putRed, ih, Nat.zero_add]
    by_cases hk : k = n
    · rw [if_pos hk, if_pos (by omega), thresholdLoop_only_red, hk]; rfl
    · rw [if_neg hk]
      by_cases h : k < n
      · rw [if_pos h, if_pos (by omega)]
      · rw [if_neg h, if_neg (by omega)]

/-- The luminance pass changes `WORK` alone. -/
theorem lumLoop_only_work (n p : Nat) (s : State) :
    loop lumPixel n p s = { s with work := (loop lumPixel n p s).work } := by
  induction n generalizing p s with
  | zero => rfl
  | succ n ih => rw [loop_succ, ih]; rfl

/-- After the luminance pass the slots of its pixels hold their luminances; every other slot is kept (R115). -/
theorem lumLoop_workAt (n : Nat) (s : State) (k : Nat) : (loop lumPixel n 0 s).workAt k =
    if k % 4 = 0 ∧ k < 4 * n then (lum (s.redSample (k / 4)) (s.greenSample (k / 4)) (s.blueSample (k / 4)) : Int)
    else s.workAt k := by
  induction n with
  | zero => rw [loop_zero, if_neg (by omega)]
  | succ n ih =>
    rw [loop_succ_last, lumPixel_eq, State.workAt_putWork, ih, Nat.zero_add]
    by_cases hk : k = 4 * n
    · rw [if_pos hk, if_pos (by omega), lumLoop_only_work, show k / 4 = n by omega]; rfl
    · rw [if_neg hk]
      by_cases h : k % 4 = 0 ∧ k < 4 * n
      · rw [if_pos h, if_pos (by omega)]
      · rw [if_neg h, if_neg (by omega)]

/-- A tap changes `WORK` and the temporary `t` alone. -/
theorem applyTap_only (j d : Nat) (s : State) :
    ∃ w, applyTap j s d = { s with work := w, tmp := { s.tmp with t := j + d } } := by
  unfold applyTap
  dsimp only
  split <;> exact ⟨_, rfl⟩

theorem applyTaps_only (j : Nat) (ds : List Nat) (s : State) :
    ∃ w t, ds.foldl (applyTap j) s = { s with work := w, tmp := { s.tmp with t := t } } := by
  induction ds generalizing s with
  | nil => exact ⟨s.work, s.tmp.t, rfl⟩
  | cons d ds ih =>
    obtain ⟨w, hw⟩ := applyTap_only j d s
    obtain ⟨w', t', h⟩ := ih (applyTap j s d)
    exact ⟨w', t', by rw [List.foldl_cons, h, hw]⟩

/-- Pixel `p` of pass 2 writes `RED[p]` and changes `WORK` and the temporaries, nothing else. -/
theorem diffusePixel_only (p : Nat) (s : State) :
    ∃ w m, diffusePixel p s =
      { s with work := w, tmp := m, red := Memory.put s.red p (quantise (s.workAt (4 * p)) s.contrast) } := by
  unfold diffusePixel
  dsimp only
  obtain ⟨w, t, h⟩ := applyTaps_only (4 * p) (tapOffsets s.width.toNat)
    ((s.setTmp (quantiseTemps p s)).putRed p (quantiseTemps p s).newPixel)
  exact ⟨w, _, by simp only [State.setTmp_width, State.setTmp_tmp]; rw [h]; rfl⟩

/-- Pass 2 changes `WORK`, `RED` and the temporaries alone. -/
theorem diffuseLoop_only (n p : Nat) (s : State) :
    ∃ w r m, loop diffusePixel n p s = { s with work := w, red := r, tmp := m } := by
  induction n generalizing p s with
  | zero => exact ⟨s.work, s.red, s.tmp, rfl⟩
  | succ n ih =>
    obtain ⟨w, m, h⟩ := diffusePixel_only p s
    obtain ⟨w', r', m', h'⟩ := ih (p + 1) (diffusePixel p s)
    exact ⟨w', r', m', by rw [loop_succ, h', h]⟩

/-- A tap adds the error to its target if that lies below `n`, and leaves every other slot alone (R137). -/
theorem applyTap_workAt (j d k : Nat) (s : State) :
    (applyTap j s d).workAt k = if j + d = k ∧ k < s.tmp.n then s.workAt k + s.tmp.error else s.workAt k := by
  unfold applyTap
  by_cases hb : j + d < s.tmp.n
  · simp only [hb, if_true, State.setTmp_workAt, State.workAt_putWork]
    by_cases hk : k = j + d
    · subst hk; simp [hb]
    · simp [hk, Ne.symm hk]
  · simp only [hb, if_false, State.setTmp_workAt]
    rw [if_neg (by rintro ⟨rfl, h⟩; exact hb h)]

/-- A list of taps adds the error once per tap whose target it is (R137). -/
theorem applyTaps_workAt (j k : Nat) (ds : List Nat) (s : State) :
    (ds.foldl (applyTap j) s).workAt k =
      s.workAt k + (ds.map fun d => if j + d = k ∧ k < s.tmp.n then s.tmp.error else 0).sum := by
  induction ds generalizing s with
  | nil => simp
  | cons d ds ih =>
    obtain ⟨w, h⟩ := applyTap_only j d s
    have hn : (applyTap j s d).tmp.n = s.tmp.n := by rw [h]
    have he : (applyTap j s d).tmp.error = s.tmp.error := by rw [h]
    rw [List.foldl_cons, ih, applyTap_workAt, hn, he, List.map_cons, List.sum_cons]
    split <;> ring

/-- What pixel `p` of pass 2 does to every slot: the error of `p`, once per tap that reaches it (R133, R136, R137). -/
theorem diffusePixel_workAt (p k : Nat) (s : State) :
    (diffusePixel p s).workAt k = s.workAt k +
      ((tapOffsets s.width.toNat).map fun d => if 4 * p + d = k ∧ k < 4 * s.pixels then
        diffusionError (s.workAt (4 * p)) (quantise (s.workAt (4 * p)) s.contrast) else 0).sum := by
  unfold diffusePixel
  dsimp only
  rw [applyTaps_workAt]
  simp only [State.putRed_workAt, State.setTmp_workAt, State.putRed_tmp, State.setTmp_tmp, State.setTmp_width]
  rfl

/-- What pixel `p` of pass 2 does to every entry. -/
theorem diffusePixel_redAt (p k : Nat) (s : State) :
    (diffusePixel p s).redAt k = if k = p then quantise (s.workAt (4 * p)) s.contrast else s.redAt k := by
  obtain ⟨w, m, h⟩ := diffusePixel_only p s
  rw [h]
  exact State.redAt_putRed s p k _

/-- The luminance pass of a whole image (R115). -/
theorem luminancePass_workAt (s : State) (k : Nat) : (luminancePass s).workAt k =
    if k % 4 = 0 ∧ k < 4 * s.pixels then
      (lum (s.redSample (k / 4)) (s.greenSample (k / 4)) (s.blueSample (k / 4)) : Int)
    else s.workAt k := by rw [luminancePass, lumLoop_workAt]

theorem luminancePass_only_work (s : State) : luminancePass s = { s with work := (luminancePass s).work } := by
  rw [luminancePass, lumLoop_only_work]

theorem pass2_zero (s : State) : s.pass2 0 = luminancePass s.begin := by rw [State.pass2, loop_zero]

theorem pass2_succ (s : State) (p : Nat) : s.pass2 (p + 1) = diffusePixel p (s.pass2 p) := by
  rw [State.pass2, loop_succ_last, Nat.zero_add, State.pass2]

/-- Pass 2, as far as it has come, has changed `WORK`, `RED` and the temporaries of the launched state alone. -/
theorem pass2_only (s : State) (p : Nat) :
    ∃ w r m, s.pass2 p = { s.begin with work := w, red := r, tmp := m } := by
  obtain ⟨w, r, m, h⟩ := diffuseLoop_only p 0 (luminancePass s.begin)
  exact ⟨w, r, m, by rw [State.pass2, h, luminancePass_only_work]⟩

/-- The reduced array and the working buffer of `RED.D` are those pass 2 ends with. -/
theorem runRedD_from_pass2 (s : State) :
    (∀ k, (runRedD s.begin).redAt k = (s.pass2 s.pixels).redAt k) ∧
      ∀ k, (runRedD s.begin).workAt k = (s.pass2 s.pixels).workAt k := by
  constructor <;> intro k <;> simp [runRedD, State.finishReduce, State.pass2]

end Sys2Proof.Machine
end

