-- ==== Sys2Proof/Laws/Step.lean ====
section
/-! SUPPORT. What a whole command, a small step and a step of the machine can change: said once, for every later proof. -/

namespace Sys2Proof.Machine

/-- What the core can never change (R21, R27, R32): the parameters, the operand registers, `PIXLEN`, `PIX`, and what is the
host's. -/
structure CoreKeeps (s t : State) : Prop where
  cfg : t.cfg = s.cfg
  width : t.width = s.width
  height : t.height = s.height
  contrast : t.contrast = s.contrast
  scale : t.scale = s.scale
  pixlen : t.pixlen = s.pixlen
  pix : t.pix = s.pix
  epoch : t.epoch = s.epoch
  host : t.host = s.host
  heard : t.heard = s.heard
  serial : t.serial = s.serial
  awaits : t.awaits = s.awaits

theorem CoreKeeps.rfl' (s : State) : CoreKeeps s s := ⟨rfl, rfl, rfl, rfl, rfl, rfl, rfl, rfl, rfl, rfl, rfl, rfl⟩

theorem CoreKeeps.trans {s t u : State} (h : CoreKeeps s t) (g : CoreKeeps t u) : CoreKeeps s u :=
  ⟨g.cfg.trans h.cfg, g.width.trans h.width, g.height.trans h.height, g.contrast.trans h.contrast, g.scale.trans h.scale,
    g.pixlen.trans h.pixlen, g.pix.trans h.pix, g.epoch.trans h.epoch, g.host.trans h.host, g.heard.trans h.heard,
    g.serial.trans h.serial, g.awaits.trans h.awaits⟩

theorem CoreKeeps.pixels {s t : State} (h : CoreKeeps s t) : t.pixels = s.pixels := by
  simp only [State.pixels, h.width, h.height]

theorem CoreKeeps.pixAt {s t : State} (h : CoreKeeps s t) (k : Nat) : t.pixAt k = s.pixAt k := by
  simp only [State.pixAt, State.byteAt, State.cells, h.pix, h.serial, h.epoch]

/-- All of `RED.T` after its checks: `RED`, `REDLEN`, `STATUS`, and the counter and temporaries at rest (R131). -/
theorem runRedT_only (s : State) : runRedT s =
    { s with red := (runRedT s).red, redlen := s.pixels, status := .done, scan := .idle, tmp := Temps.dead } := by
  unfold runRedT State.finishReduce
  rw [thresholdLoop_only_red]
  rfl

/-- All of `RED.D` after its checks: as `RED.T`, and the hidden `WORK` (R133). -/
theorem runRedD_only (s : State) : runRedD s =
    { s with
      work := (runRedD s).work, red := (runRedD s).red, redlen := s.pixels, status := .done, scan := .idle,
      tmp := Temps.dead } := by
  unfold runRedD State.finishReduce luminancePass
  obtain ⟨w, r, m, h⟩ := diffuseLoop_only s.pixels 0 (loop lumPixel s.pixels 0 s)
  rw [h, lumLoop_only_work]
  rfl

/-- All of `ENC` after its checks: `FRAME`, `FRAMELEN`, `STATUS`, and the counter and temporaries at rest (R177). -/
theorem runEnc_only (s : State) : runEnc s =
    { s with
      frame := (runEnc s).frame, framelen := 8 + s.packedBytes, status := .done, scan := .idle,
      tmp := Temps.dead } := by
  unfold runEnc State.finishEncode
  obtain ⟨f, m, h⟩ := headerLoop_only 8 0 s
  rw [h, bitmapLoop_only_frame]
  rfl

section Results

variable (s : State)

@[simp] theorem runRedT_cfg : (runRedT s).cfg = s.cfg := by rw [runRedT_only]
@[simp] theorem runRedT_width : (runRedT s).width = s.width := by rw [runRedT_only]
@[simp] theorem runRedT_height : (runRedT s).height = s.height := by rw [runRedT_only]
@[simp] theorem runRedT_contrast : (runRedT s).contrast = s.contrast := by rw [runRedT_only]
@[simp] theorem runRedT_scale : (runRedT s).scale = s.scale := by rw [runRedT_only]
@[simp] theorem runRedT_pixlen : (runRedT s).pixlen = s.pixlen := by rw [runRedT_only]
@[simp] theorem runRedT_redlen : (runRedT s).redlen = s.pixels := by rw [runRedT_only]
@[simp] theorem runRedT_framelen : (runRedT s).framelen = s.framelen := by rw [runRedT_only]
@[simp] theorem runRedT_status : (runRedT s).status = .done := by rw [runRedT_only]
@[simp] theorem runRedT_pix : (runRedT s).pix = s.pix := by rw [runRedT_only]
@[simp] theorem runRedT_work : (runRedT s).work = s.work := by rw [runRedT_only]
@[simp] theorem runRedT_frame : (runRedT s).frame = s.frame := by rw [runRedT_only]
@[simp] theorem runRedT_scan : (runRedT s).scan = .idle := by rw [runRedT_only]
@[simp] theorem runRedT_tmp : (runRedT s).tmp = Temps.dead := by rw [runRedT_only]
@[simp] theorem runRedT_epoch : (runRedT s).epoch = s.epoch := by rw [runRedT_only]
@[simp] theorem runRedT_host : (runRedT s).host = s.host := by rw [runRedT_only]
@[simp] theorem runRedT_heard : (runRedT s).heard = s.heard := by rw [runRedT_only]
@[simp] theorem runRedT_serial : (runRedT s).serial = s.serial := by rw [runRedT_only]
@[simp] theorem runRedT_awaits : (runRedT s).awaits = s.awaits := by rw [runRedT_only]
@[simp] theorem runRedT_pixAt (k : Nat) : (runRedT s).pixAt k = s.pixAt k := by rw [runRedT_only]; rfl
@[simp] theorem runRedT_frameAt (k : Nat) : (runRedT s).frameAt k = s.frameAt k := by rw [runRedT_only]; rfl
@[simp] theorem runRedT_workAt (k : Nat) : (runRedT s).workAt k = s.workAt k := by rw [runRedT_only]; rfl

@[simp] theorem runRedD_cfg : (runRedD s).cfg = s.cfg := by rw [runRedD_only]
@[simp] theorem runRedD_width : (runRedD s).width = s.width := by rw [runRedD_only]
@[simp] theorem runRedD_height : (runRedD s).height = s.height := by rw [runRedD_only]
@[simp] theorem runRedD_contrast : (runRedD s).contrast = s.contrast := by rw [runRedD_only]
@[simp] theorem runRedD_scale : (runRedD s).scale = s.scale := by rw [runRedD_only]
@[simp] theorem runRedD_pixlen : (runRedD s).pixlen = s.pixlen := by rw [runRedD_only]
@[simp] theorem runRedD_redlen : (runRedD s).redlen = s.pixels := by rw [runRedD_only]
@[simp] theorem runRedD_framelen : (runRedD s).framelen = s.framelen := by rw [runRedD_only]
@[simp] theorem runRedD_status : (runRedD s).status = .done := by rw [runRedD_only]
@[simp] theorem runRedD_pix : (runRedD s).pix = s.pix := by rw [runRedD_only]
@[simp] theorem runRedD_frame : (runRedD s).frame = s.frame := by rw [runRedD_only]
@[simp] theorem runRedD_scan : (runRedD s).scan = .idle := by rw [runRedD_only]
@[simp] theorem runRedD_tmp : (runRedD s).tmp = Temps.dead := by rw [runRedD_only]
@[simp] theorem runRedD_epoch : (runRedD s).epoch = s.epoch := by rw [runRedD_only]
@[simp] theorem runRedD_host : (runRedD s).host = s.host := by rw [runRedD_only]
@[simp] theorem runRedD_heard : (runRedD s).heard = s.heard := by rw [runRedD_only]
@[simp] theorem runRedD_serial : (runRedD s).serial = s.serial := by rw [runRedD_only]
@[simp] theorem runRedD_awaits : (runRedD s).awaits = s.awaits := by rw [runRedD_only]
@[simp] theorem runRedD_pixAt (k : Nat) : (runRedD s).pixAt k = s.pixAt k := by rw [runRedD_only]; rfl
@[simp] theorem runRedD_frameAt (k : Nat) : (runRedD s).frameAt k = s.frameAt k := by rw [runRedD_only]; rfl

@[simp] theorem runEnc_cfg : (runEnc s).cfg = s.cfg := by rw [runEnc_only]
@[simp] theorem runEnc_width : (runEnc s).width = s.width := by rw [runEnc_only]
@[simp] theorem runEnc_height : (runEnc s).height = s.height := by rw [runEnc_only]
@[simp] theorem runEnc_contrast : (runEnc s).contrast = s.contrast := by rw [runEnc_only]
@[simp] theorem runEnc_scale : (runEnc s).scale = s.scale := by rw [runEnc_only]
@[simp] theorem runEnc_pixlen : (runEnc s).pixlen = s.pixlen := by rw [runEnc_only]
@[simp] theorem runEnc_redlen : (runEnc s).redlen = s.redlen := by rw [runEnc_only]
@[simp] theorem runEnc_framelen : (runEnc s).framelen = 8 + s.packedBytes := by rw [runEnc_only]
@[simp] theorem runEnc_status : (runEnc s).status = .done := by rw [runEnc_only]
@[simp] theorem runEnc_pix : (runEnc s).pix = s.pix := by rw [runEnc_only]
@[simp] theorem runEnc_work : (runEnc s).work = s.work := by rw [runEnc_only]
@[simp] theorem runEnc_red : (runEnc s).red = s.red := by rw [runEnc_only]
@[simp] theorem runEnc_scan : (runEnc s).scan = .idle := by rw [runEnc_only]
@[simp] theorem runEnc_tmp : (runEnc s).tmp = Temps.dead := by rw [runEnc_only]
@[simp] theorem runEnc_epoch : (runEnc s).epoch = s.epoch := by rw [runEnc_only]
@[simp] theorem runEnc_host : (runEnc s).host = s.host := by rw [runEnc_only]
@[simp] theorem runEnc_heard : (runEnc s).heard = s.heard := by rw [runEnc_only]
@[simp] theorem runEnc_serial : (runEnc s).serial = s.serial := by rw [runEnc_only]
@[simp] theorem runEnc_awaits : (runEnc s).awaits = s.awaits := by rw [runEnc_only]
@[simp] theorem runEnc_pixAt (k : Nat) : (runEnc s).pixAt k = s.pixAt k := by rw [runEnc_only]; rfl
@[simp] theorem runEnc_redAt (k : Nat) : (runEnc s).redAt k = s.redAt k := by rw [runEnc_only]; rfl
@[simp] theorem runEnc_workAt (k : Nat) : (runEnc s).workAt k = s.workAt k := by rw [runEnc_only]; rfl

end Results

/-- No command, completed or faulted, changes what the core can never change. -/
theorem exec_keeps {i : Instr} {s t : State} (h : exec i s = .next t) : CoreKeeps s t := by
  cases i with
  | redT =>
    rcases launch_cases h with ⟨c, -, rfl⟩ | ⟨-, rfl⟩
    · exact ⟨rfl, rfl, rfl, rfl, rfl, rfl, rfl, rfl, rfl, rfl, rfl, rfl⟩
    · rw [runRedT_only]; exact ⟨rfl, rfl, rfl, rfl, rfl, rfl, rfl, rfl, rfl, rfl, rfl, rfl⟩
  | redD =>
    rcases launch_cases h with ⟨c, -, rfl⟩ | ⟨-, rfl⟩
    · exact ⟨rfl, rfl, rfl, rfl, rfl, rfl, rfl, rfl, rfl, rfl, rfl, rfl⟩
    · rw [runRedD_only]; exact ⟨rfl, rfl, rfl, rfl, rfl, rfl, rfl, rfl, rfl, rfl, rfl, rfl⟩
  | enc =>
    rcases launch_cases h with ⟨c, -, rfl⟩ | ⟨-, rfl⟩
    · exact ⟨rfl, rfl, rfl, rfl, rfl, rfl, rfl, rfl, rfl, rfl, rfl, rfl⟩
    · rw [runEnc_only]; exact ⟨rfl, rfl, rfl, rfl, rfl, rfl, rfl, rfl, rfl, rfl, rfl, rfl⟩

theorem diffusePixel_keeps (p : Nat) (s : State) : CoreKeeps s (diffusePixel p s) := by
  obtain ⟨w, m, h⟩ := diffusePixel_only p s
  rw [h]
  exact ⟨rfl, rfl, rfl, rfl, rfl, rfl, rfl, rfl, rfl, rfl, rfl, rfl⟩

theorem headerStep_keeps (k : Nat) (s : State) : CoreKeeps s (headerStep k s) := by
  rw [headerStep_eq]
  constructor <;> simp

theorem setScan_keeps (s : State) (c : Scan) : CoreKeeps s (s.setScan c) :=
  ⟨rfl, rfl, rfl, rfl, rfl, rfl, rfl, rfl, rfl, rfl, rfl, rfl⟩

theorem finishReduce_keeps (s : State) : CoreKeeps s s.finishReduce :=
  ⟨rfl, rfl, rfl, rfl, rfl, rfl, rfl, rfl, rfl, rfl, rfl, rfl⟩

theorem finishEncode_keeps (s : State) : CoreKeeps s s.finishEncode :=
  ⟨rfl, rfl, rfl, rfl, rfl, rfl, rfl, rfl, rfl, rfl, rfl, rfl⟩

/-- No small step changes what the core can never change. -/
theorem tick_keeps (s : State) : CoreKeeps s (tick s) := by
  unfold tick
  split
  · exact CoreKeeps.rfl' s
  · next p _ =>
    have h : CoreKeeps s (thresholdPixel p s) := ⟨rfl, rfl, rfl, rfl, rfl, rfl, rfl, rfl, rfl, rfl, rfl, rfl⟩
    dsimp only; split
    · exact h.trans (setScan_keeps _ _)
    · exact h.trans (finishReduce_keeps _)
  · next p _ =>
    have h : CoreKeeps s (lumPixel p s) := ⟨rfl, rfl, rfl, rfl, rfl, rfl, rfl, rfl, rfl, rfl, rfl, rfl⟩
    dsimp only; split <;> exact h.trans (setScan_keeps _ _)
  · next p _ =>
    dsimp only; split
    · exact (diffusePixel_keeps p s).trans (setScan_keeps _ _)
    · exact (diffusePixel_keeps p s).trans (finishReduce_keeps _)
  · next k _ => dsimp only; split <;> exact (headerStep_keeps k s).trans (setScan_keeps _ _)
  · next k _ =>
    have h : CoreKeeps s (bitmapStep k s) := ⟨rfl, rfl, rfl, rfl, rfl, rfl, rfl, rfl, rfl, rfl, rfl, rfl⟩
    dsimp only; split
    · exact h.trans (setScan_keeps _ _)
    · exact h.trans (finishEncode_keeps _)

theorem advance_keeps (s : State) : CoreKeeps s s.advance := by
  unfold State.advance
  split
  · exact tick_keeps s
  · exact CoreKeeps.rfl' s

theorem startCommand_keeps (s : State) (i : Instr) : CoreKeeps s (s.startCommand i) := by
  unfold State.startCommand
  split <;> exact ⟨rfl, rfl, rfl, rfl, rfl, rfl, rfl, rfl, rfl, rfl, rfl, rfl⟩

/-- Which accesses of the host are accepted (R32, R212, R234). -/
theorem hostRefusal_eq_none_iff (s : State) (op : HostOp) :
    s.hostRefusal op = none ↔
      op.allowedWhileBusy = true ∨ s.status ≠ .busy ∧ (s.awaits = false ∨ op.allowedBeforePoll = true) := by
  unfold State.hostRefusal
  cases op.allowedWhileBusy <;> cases op.allowedBeforePoll <;> cases s.awaits <;>
    by_cases hb : s.status = .busy <;> simp [hb]

/-- What is accepted while `BUSY` is accepted always. -/
theorem hostRefusal_of_allowedWhileBusy (s : State) {op : HostOp} (h : op.allowedWhileBusy = true) :
    s.hostRefusal op = none := (hostRefusal_eq_none_iff s op).mpr (.inl h)

/-- A host that has read the outcome of its latest command may make any access. -/
theorem hostRefusal_of_free {s : State} (h : s.HostFree) (op : HostOp) : s.hostRefusal op = none :=
  (hostRefusal_eq_none_iff s op).mpr (.inr ⟨h.1, .inl h.2⟩)

@[simp] theorem Move.outcome_run (i : Instr) (s : State) : (Move.run i s).outcome = exec i s := rfl

@[simp] theorem Move.outcome_settle (o : Host.Outcome State Fault Refusal) : (Move.settle o).outcome = o := rfl

/-- A step with no access pending. -/
theorem step_of_nil {s : State} (hh : s.host = []) : step s = .next s.advance := by
  unfold step State.nextMove
  rw [hh, Move.outcome_settle]

/-- A step at an access that is accepted. -/
theorem step_of_host {s : State} {op : HostOp} {rest : List HostOp} (hh : s.host = op :: rest)
    (hf : s.hostRefusal op = none) : step s = (op.move (s.setHost rest)).outcome := by
  unfold step State.nextMove
  rw [hh]
  simp only [hf]

/-- A step at an access that is not accepted. -/
theorem step_of_refusal {s : State} {op : HostOp} {rest : List HostOp} {r : Refusal} (hh : s.host = op :: rest)
    (hr : s.hostRefusal op = some r) : step s = .refused r := by
  unfold step State.nextMove
  rw [hh]
  simp only [hr, Move.outcome_settle]

/-- The same block beside another host. -/
def State.onHost (l : List HostOp) (x : Option Nat) (a : Bool) (s : State) : State :=
  { s with host := l, heard := x, awaits := a }

/-- Everything a step that answers a next state can have done. -/
inductive StepEffect (s t : State) : Prop where
  /-- Nothing of the block moved: a read, a poll of `WAIT`, a condition, or no access and no command running. -/
  | hostOnly (l : List HostOp) (x : Option Nat) (a : Bool) (ha : s.status = .busy → a = s.awaits) (ht : t = s.onHost l x a)
  /-- One small step of the command that is running. -/
  | smallStep (l : List HostOp) (x : Option Nat) (a : Bool) (hb : s.status = .busy) (ha : a = s.awaits)
      (ht : t = tick (s.onHost l x a))
  /-- A write to `CMD` launches a command (R23). -/
  | launch (i : Instr) (v : Nat) (rest : List HostOp) (hh : s.host = .write 0 v :: rest) (hf : s.HostFree)
      (hd : decodeByte (BitVec.ofNat 8 v) = some i) (ht : exec i (s.onHost rest s.heard true) = .next t)
  /-- The same, to be followed by small steps (R10). -/
  | start (i : Instr) (v : Byte) (rest : List HostOp) (hh : s.host = .start v :: rest) (hf : s.HostFree)
      (hd : decodeByte v = some i) (ht : t = (s.onHost rest s.heard true).startCommand i)
  /-- A write of a reserved byte to `CMD` (R82). -/
  | reserved (rest : List HostOp) (hf : s.HostFree)
      (ht : t = (s.onHost rest s.heard true).setStatus (.fault .cvCmd))
  | writeReg (r v : Nat) (rest : List HostOp) (hh : s.host = .write r v :: rest) (hb : s.status ≠ .busy)
      (hw : s.awaits = false ∨ 9 ≤ r) (hr : r ≠ 0)
      (ht : t = (s.setHost rest).writeReg r v)
  | store (b : Buffer) (k : Nat) (v : Byte) (rest : List HostOp) (hh : s.host = .store b k v :: rest)
      (hf : s.HostFree) (hk : k < bufferSize s.cfg b) (ht : t = (s.setHost rest).hostStore b k v)
  | reset (rest : List HostOp) (hh : s.host = .reset :: rest) (ht : t = (s.setHost rest).restart)

/-- A read of `STATUS` moves nothing of the block. -/
theorem StepEffect.of_readStatus (s : State) (l : List HostOp) (x : Option Nat) :
    StepEffect s (s.onHost l x (s.awaits && decide (s.status = .busy))) :=
  .hostOnly l x _ (fun h => by simp [h]) rfl

/-- The sequencer's own move. -/
theorem StepEffect.of_advance (s : State) (l : List HostOp) (x : Option Nat) (a : Bool) (ha : s.status = .busy → a = s.awaits) :
    StepEffect s (s.onHost l x a).advance := by
  by_cases hb : s.status = .busy
  · rw [State.advance, if_pos (show (s.onHost l x a).status = .busy from hb)]
    exact .smallStep l x a hb (ha hb) rfl
  · rw [State.advance, if_neg (show ¬ (s.onHost l x a).status = .busy from hb)]
    exact .hostOnly l x a ha rfl

/-- One poll of `WAIT`. -/
theorem StepEffect.of_poll (s : State) (rest : List HostOp) : StepEffect s (s.setHost rest).poll := by
  unfold State.poll
  dsimp only
  split
  · exact .of_readStatus s rest _
  · exact .of_readStatus s rest _
  · exact .of_readStatus s (.wait :: rest) _
  · exact .of_advance s (.wait :: rest) _ _ (fun h => by simp [h])

/-- The inversion of `step`. -/
theorem step_effect {s t : State} (h : step s = .next t) : StepEffect s t := by
  cases hh : s.host with
  | nil =>
    rw [step_of_nil hh] at h
    rw [← Host.Outcome.next.inj h]
    exact .of_advance s s.host s.heard s.awaits (fun _ => rfl)
  | cons op rest =>
    cases hr : s.hostRefusal op with
    | some r => rw [step_of_refusal hh hr] at h; simp at h
    | none =>
      rw [step_of_host hh hr] at h
      have hf := (hostRefusal_eq_none_iff s op).mp hr
      have hb : op.allowedWhileBusy = false → op.allowedBeforePoll = false → s.HostFree := fun ha hp =>
        have hn := hf.resolve_left (by simp [ha])
        ⟨hn.1, hn.2.resolve_right (by simp [hp])⟩
      cases op with
      | write r v =>
        by_cases hr : r = 0
        · subst hr
          simp only [HostOp.move, if_true, State.command] at h
          cases hd : decodeByte (BitVec.ofNat 8 v) with
          | none => rw [hd] at h; exact .reserved rest (hb rfl rfl) (Host.Outcome.next.inj h).symm
          | some i => rw [hd] at h; exact .launch i v rest hh (hb rfl rfl) hd h
        · simp only [HostOp.move, hr, if_false] at h
          have hn := hf.resolve_left (by simp [HostOp.allowedWhileBusy])
          exact .writeReg r v rest hh hn.1 (by simpa [HostOp.allowedBeforePoll] using hn.2) hr (Host.Outcome.next.inj h).symm
      | read r =>
        rw [← Host.Outcome.next.inj h]
        split
        · exact .of_readStatus s rest _
        · exact .hostOnly rest _ s.awaits (fun _ => rfl) rfl
      | store b k v =>
        by_cases hk : k < bufferSize s.cfg b
        · exact .store b k v rest hh (hb rfl rfl) hk (by simpa [HostOp.move, hk] using h.symm)
        · simp [HostOp.move, hk] at h
      | load b k =>
        by_cases hk : k < bufferSize s.cfg b
        · have hm : (HostOp.load b k).move (s.setHost rest) =
              .settle (.next ((s.setHost rest).setHeard (some (s.byteAt b k).toNat))) := if_pos hk
          rw [hm] at h
          exact .hostOnly rest _ s.awaits (fun _ => rfl) (Host.Outcome.next.inj h).symm
        · simp [HostOp.move, hk] at h
      | start v =>
        simp only [HostOp.move, State.start] at h
        cases hd : decodeByte v with
        | none => rw [hd] at h; exact .reserved rest (hb rfl rfl) (Host.Outcome.next.inj h).symm
        | some i => rw [hd] at h; exact .start i v rest hh (hb rfl rfl) hd (Host.Outcome.next.inj h).symm
      | wait => rw [← Host.Outcome.next.inj h]; exact .of_poll s rest
      | whenDone n =>
        rw [← Host.Outcome.next.inj h, State.branchDone]
        split
        · exact .of_readStatus s rest _
        · exact .of_readStatus s (rest.drop n) _
      | pause =>
        rw [← Host.Outcome.next.inj h]
        exact .of_advance s rest s.heard s.awaits (fun _ => rfl)
      | reset => exact .reset rest hh (Host.Outcome.next.inj h).symm

end Sys2Proof.Machine
end

