-- ==== Sys2Proof/Laws/Run.lean ====
section
/-! SUPPORT. Small steps in sequence, machine steps in sequence, and the decoder on one byte. -/

namespace Sys2Proof.Machine

theorem ticks_succ_last (n : Nat) (s : State) : ticks (n + 1) s = tick (ticks n s) := by
  induction n generalizing s with
  | zero => rfl
  | succ n ih => rw [ticks, ih, ticks]

theorem ticks_add (m n : Nat) (s : State) : ticks (m + n) s = ticks n (ticks m s) := by
  induction m generalizing s with
  | zero => rw [Nat.zero_add, ticks]
  | succ m ih => rw [Nat.succ_add, ticks, ih, ticks]

/-- One step of a run that answers a next state. -/
theorem run_succ (M : Host.Core) (k : Nat) (s t : M.State) (h : M.step s = .next t) : M.run (k + 1) s = M.run k t := by
  rw [Host.Core.run, h]

theorem core_run_succ (k : Nat) (s t : State) (h : step s = .next t) :
    Host.Core.run Sys2Proof.core (k + 1) s = Host.Core.run Sys2Proof.core k t := run_succ Sys2Proof.core k s t h

/-- A byte decodes to a command exactly when decoding it alone leaves nothing over. -/
theorem decodeByte_eq_some_iff (b : Byte) (i : Instr) : decodeByte b = some i ↔ decode [b] = .ok (i, []) := by
  unfold decodeByte
  simp only [decode]
  split_ifs <;> simp

/-- A reserved byte, as the launch sees it (R82). -/
theorem decodeByte_reserved {b : Byte} (h : 2 < b.toNat) : decodeByte b = none := by
  have hne : ∀ n : Nat, n ≤ 2 → b ≠ BitVec.ofNat 8 n := by
    intro n hn he
    have := congrArg BitVec.toNat he
    simp only [BitVec.toNat_ofNat] at this
    omega
  unfold decodeByte
  simp only [decode]
  rw [if_neg (hne 0 (by omega)), if_neg (hne 1 (by omega)), if_neg (hne 2 (by omega))]
  by_cases h3 : b = 0x03#8 <;> simp [h3]

end Sys2Proof.Machine
end

