-- ==== Sys2Proof/Laws/Host.lean ====
section
/-! SUPPORT. No command and no small step looks at what is the host's (its list, what it heard, whether it awaits a command):
each commutes with replacing all three. -/

namespace Sys2Proof.Machine

variable (l : List HostOp) (x : Option Nat) (a : Bool)

theorem loop_onHost {body : Nat → State → State}
    (h : ∀ p s, body p (s.onHost l x a) = (body p s).onHost l x a) (n p : Nat) (s : State) :
    loop body n p (s.onHost l x a) = (loop body n p s).onHost l x a := by
  induction n generalizing p s with
  | zero => rfl
  | succ n ih => rw [loop_succ, loop_succ, h, ih]

theorem thresholdPixel_onHost (p : Nat) (s : State) :
    thresholdPixel p (s.onHost l x a) = (thresholdPixel p s).onHost l x a := rfl

theorem lumPixel_onHost (p : Nat) (s : State) : lumPixel p (s.onHost l x a) = (lumPixel p s).onHost l x a := rfl

theorem applyTap_onHost (j d : Nat) (s : State) :
    applyTap j (s.onHost l x a) d = (applyTap j s d).onHost l x a := by
  unfold applyTap
  dsimp only
  by_cases ht : j + d < s.tmp.n
  · rw [if_pos ht, if_pos (show j + d < (s.onHost l x a).tmp.n from ht)]; rfl
  · rw [if_neg ht, if_neg (show ¬ j + d < (s.onHost l x a).tmp.n from ht)]; rfl

theorem applyTaps_onHost (j : Nat) (ds : List Nat) (s : State) :
    ds.foldl (applyTap j) (s.onHost l x a) = (ds.foldl (applyTap j) s).onHost l x a := by
  induction ds generalizing s with
  | nil => rfl
  | cons d ds ih => rw [List.foldl_cons, List.foldl_cons, applyTap_onHost, ih]

theorem diffusePixel_onHost (p : Nat) (s : State) :
    diffusePixel p (s.onHost l x a) = (diffusePixel p s).onHost l x a := by
  have hq : quantiseTemps p (s.onHost l x a) = quantiseTemps p s := rfl
  unfold diffusePixel
  dsimp only
  rw [← applyTaps_onHost, hq]
  rfl

theorem headerStep_onHost (k : Nat) (s : State) :
    headerStep k (s.onHost l x a) = (headerStep k s).onHost l x a := by
  rw [headerStep_eq, headerStep_eq, headerByte_of_temps, headerByte_of_temps]
  rfl

theorem bitmapStep_onHost (k : Nat) (s : State) :
    bitmapStep k (s.onHost l x a) = (bitmapStep k s).onHost l x a := rfl

theorem runRedT_onHost (s : State) : runRedT (s.onHost l x a) = (runRedT s).onHost l x a := by
  unfold runRedT
  rw [loop_onHost l x a (thresholdPixel_onHost l x a)]
  rfl

theorem runRedD_onHost (s : State) : runRedD (s.onHost l x a) = (runRedD s).onHost l x a := by
  unfold runRedD luminancePass
  rw [loop_onHost l x a (lumPixel_onHost l x a), loop_onHost l x a (diffusePixel_onHost l x a)]
  rfl

theorem runEnc_onHost (s : State) : runEnc (s.onHost l x a) = (runEnc s).onHost l x a := by
  unfold runEnc
  rw [loop_onHost l x a (headerStep_onHost l x a), loop_onHost l x a (bitmapStep_onHost l x a)]
  generalize loop headerStep 8 0 s = u
  show (State.finishEncode _) = _
  unfold State.finishEncode
  rfl

/-- A launch does the same whatever is the host's. -/
theorem launch_onHost {s t : State} {check : Option LaunchFault} {run : State → State}
    (hrun : ∀ u : State, run (u.onHost l x a) = (run u).onHost l x a) (h : s.launch check run = .next t) :
    (s.onHost l x a).launch check run = .next (t.onHost l x a) := by
  rcases launch_cases h with ⟨c, rfl, rfl⟩ | ⟨rfl, rfl⟩
  · rfl
  · rw [launch_run, show (s.onHost l x a).begin = s.begin.onHost l x a from rfl, hrun]

/-- No command looks at what is the host's. -/
theorem exec_onHost {i : Instr} {s t : State} (h : exec i s = .next t) :
    exec i (s.onHost l x a) = .next (t.onHost l x a) := by
  cases i with
  | redT => exact launch_onHost l x a (runRedT_onHost l x a) h
  | redD => exact launch_onHost l x a (runRedD_onHost l x a) h
  | enc => exact launch_onHost l x a (runEnc_onHost l x a) h

theorem setScan_onHost (s : State) (c : Scan) : (s.onHost l x a).setScan c = (s.setScan c).onHost l x a := rfl

theorem finishReduce_onHost (s : State) : (s.onHost l x a).finishReduce = s.finishReduce.onHost l x a := rfl

theorem finishEncode_onHost (s : State) : (s.onHost l x a).finishEncode = s.finishEncode.onHost l x a := rfl

/-- No small step looks at what is the host's. -/
theorem tick_onHost (s : State) : tick (s.onHost l x a) = (tick s).onHost l x a := by
  have hp : (s.onHost l x a).pixels = s.pixels := rfl
  have hb : (s.onHost l x a).packedBytes = s.packedBytes := rfl
  unfold tick
  rw [show (s.onHost l x a).scan = s.scan from rfl]
  split <;> dsimp only
  · rw [thresholdPixel_onHost, hp]; split <;> simp only [setScan_onHost, finishReduce_onHost]
  · rw [lumPixel_onHost, hp]; split <;> simp only [setScan_onHost]
  · rw [diffusePixel_onHost, hp]; split <;> simp only [setScan_onHost, finishReduce_onHost]
  · rw [headerStep_onHost]; split <;> simp only [setScan_onHost]
  · rw [bitmapStep_onHost, hb]; split <;> simp only [setScan_onHost, finishEncode_onHost]

theorem ticks_onHost (n : Nat) (s : State) : ticks n (s.onHost l x a) = (ticks n s).onHost l x a := by
  induction n generalizing s with
  | zero => rfl
  | succ n ih => rw [ticks, ticks, tick_onHost, ih]

/-- A launch that is followed by small steps does the same whatever is the host's. -/
theorem startCommand_onHost (s : State) (i : Instr) :
    (s.onHost l x a).startCommand i = (s.startCommand i).onHost l x a := by
  have hc : (s.onHost l x a).launchCheck i = s.launchCheck i := by cases i <;> rfl
  unfold State.startCommand
  rw [hc]
  cases s.launchCheck i <;> rfl

end Sys2Proof.Machine
end

