-- ==== Sys2Proof/Laws/PerInstr.lean ====
section
/-! SUPPORT. What holds of each instruction as syntax, one lemma per constructor. -/

namespace Sys2Proof.Laws

/-- R80: a command is one byte whose format C fields are well formed and are the bits R80 says they are. -/
def Format.Statement (i : Instr) : Prop :=
  i.wellFormed = true ∧ (encode i).length = 1 ∧
    ∀ b ∈ encode i, b.extractLsb' 2 6 = i.fields.zero ∧ b.getLsbD 1 = i.fields.unit ∧ b.getLsbD 0 = i.fields.dither

theorem Format.redT : Format.Statement .redT := ⟨rfl, rfl, by decide⟩

theorem Format.redD : Format.Statement .redD := ⟨rfl, rfl, by decide⟩

theorem Format.enc : Format.Statement .enc := ⟨rfl, rfl, by decide⟩

end Sys2Proof.Laws
end

