-- ==== Sys2Proof/Tests/Slice0.lean ====
section
/-! SUPPORT. The model's own tests: the spec's words and vectors (spec/95_test_vectors.md), each expected result taken from
there, and for every statement with hypotheses a state that meets them. -/

namespace Sys2Proof.Tests

open Sys2Proof Sys2Proof.Machine

/-- `MAX_PIXELS = 1024`, as section 2.6 of the vectors takes it; the opcode bytes as the vectors show the default. -/
def board : Config := { morePixels := 1023, opc0 := 0x1D, opc1 := 0x76, opc2 := 0x30 }

/-- The smallest instance: `MAX_PIXELS = 1`. -/
def tiny : Config := { morePixels := 0, opc0 := 0xA1, opc1 := 0xA2, opc2 := 0xA3 }

/-- A state after reset whose host has loaded an image. -/
def imageOf (c : Config) (w h contrast : Nat) (samples : List Byte) : State :=
  { State.resetOf c 0 0 with
    width := BitVec.ofNat 32 w, height := BitVec.ofNat 32 h, contrast := BitVec.ofNat 8 contrast,
    pixlen := samples.length, pix := samples.zipIdx.map fun x => (x.2, x.1) }

/-- A state after reset whose host has loaded a reduced array. -/
def arrayOf (c : Config) (w h scale : Nat) (entries : List Byte) : State :=
  { State.resetOf c 0 0 with
    width := BitVec.ofNat 32 w, height := BitVec.ofNat 32 h, scale := BitVec.ofNat 8 scale,
    redlen := entries.length, red := entries.zipIdx.map fun x => (x.2, x.1) }

/-- "Grey pixel g means the four samples g, g, g, 255." -/
def grey (levels : List Byte) : List Byte := levels.flatMap fun g => [g, g, g, 255]

/-- The next state of an outcome. -/
def nextOf (o : Host.Outcome State Fault Refusal) : Option State :=
  match o with
  | .next s => some s
  | .fault _ => none
  | .refused _ => none

/-- The elements of a buffer in order. -/
def values (cells : List Host.Cell) : List Byte := cells.map fun x => x.2

-- WellFormed: an ill-formed term for each check, refused (R80)

theorem test_wellFormed_zero : FormatC.wellFormed { zero := 0b000001, unit := false, dither := false } = false := by decide
theorem test_wellFormed_dither : FormatC.wellFormed { zero := 0, unit := true, dither := true } = false := by decide
theorem test_wellFormed_enc : Instr.wellFormed .enc = true := by decide

-- Decoding: words written out from R80 and R81: zero[7:2], unit[1], dither[0]

theorem test_decode_redT : decode [0b000000_0_0#8] = .ok (.redT, []) := by decide
theorem test_decode_redD : decode [0b000000_0_1#8] = .ok (.redD, []) := by decide
theorem test_decode_enc : decode [0b000000_1_0#8] = .ok (.enc, []) := by decide
theorem test_decode_leaves_rest : decode [0x02#8, 0x01#8] = .ok (.enc, [0x01#8]) := by decide
theorem test_decode_reserved : decode [0xFF#8] = .error (.zeroField 0xFF#8) := by decide
theorem test_encode_bytes : encode .redT = [0x00#8] ∧ encode .redD = [0x01#8] ∧ encode .enc = [0x02#8] := by decide
theorem test_table_word : decodeTableWord 8 0x01 = some .redD ∧ decodeTableWord 8 0x80 = none := by decide

-- Vectors L11, L12, A2, A8, B5

theorem test_lum : lum 200 100 50 = 124 ∧ lum 0 72 24 = 45 ∧ lum 255 0 0 = 76 := by decide
theorem test_avg3ge : avg3ge 127 127 126 127 = false ∧ avg3ge 10 20 30 20 = true := by decide
theorem test_pack8 : pack8 1 0 2 0 128 0 0 0 = 0xA8 ∧ pack8 7 0 0 0 0 0 0 0 = 0x80 := by decide
theorem test_floorDiv : floorDiv (-117) 8 = -15 ∧ floorDiv (-5) 8 = -1 ∧ floorDiv 17 8 = 2 := by decide

-- RED.T: vectors T8 and T4 (alpha has no effect)

theorem test_redT_polarity :
    (nextOf (exec .redT (imageOf board 2 2 128 (grey [200, 50, 120, 130])))).map (fun t => values t.red)
      = some [0, 255, 255, 0] := by decide
theorem test_redT_white :
    (nextOf (exec .redT (imageOf board 2 1 255 [255, 255, 255, 0, 255, 255, 254, 255]))).map
      (fun t => (values t.red, t.redlen, t.status)) = some ([0, 255], 2, .done) := by decide

-- RED.D: vectors D5 (colours, widths below 4) and D6 (floors of negatives)

theorem test_redD_colours :
    (nextOf (exec .redD (imageOf board 3 2 100
      [255, 0, 0, 255, 0, 255, 0, 255, 0, 0, 255, 255, 255, 255, 0, 0, 10, 20, 30, 40, 200, 100, 50, 7]))).map
      (fun t => values t.red) = some [0, 255, 0, 255, 0, 255] := by decide
theorem test_redD_negative :
    (nextOf (exec .redD (imageOf board 3 2 0 (grey [0, 0, 0, 0, 0, 0])))).map (fun t => (values t.red, t.tmp))
      = some ([255, 0, 0, 0, 0, 0], Temps.dead) := by decide

-- ENC: vectors E4 (entries other than 0 and 255) and E3 (a byte across a row end)

theorem test_enc_entries :
    (nextOf (exec .enc (arrayOf board 3 3 1 [1, 0, 2, 0, 128, 0, 0, 0, 7]))).map (fun t => (values t.frame, t.framelen))
      = some ([0x1D, 0x76, 0x30, 0x01, 0x02, 0x00, 0x03, 0x00, 0xA8, 0x80], 10) := by decide
theorem test_enc_flat :
    (nextOf (exec .enc (arrayOf board 9 2 0 (List.replicate 18 255)))).map (fun t => values t.frame)
      = some [0x1D, 0x76, 0x30, 0x00, 0x04, 0x00, 0x02, 0x00, 0xFF, 0xFF, 0xC0] := by decide

-- Launch faults: vectors F2, F5 (each STATUS byte from the table)

theorem test_fault_reserved :
    (nextOf (step { State.resetOf board 0 0 with host := [.write 0 0x80] })).map (fun t => t.status.byte) = some 0x13 := by
  decide
theorem test_fault_resource :
    (nextOf (exec .redD { State.resetOf board 0 0 with width := 64, height := 17 })).map (fun t => t.status.byte)
      = some 0x43 := by decide
theorem test_first_step_after_reset :
    (nextOf (step (State.reset.withFetchWord 8 0x02))).map (fun t => t.status.byte) = some 0x23 := by decide

-- R234: after a launch the host may only read STATUS until it has read that the block is not BUSY

theorem test_result_before_status_read :
    (match step { State.resetOf tiny 0 0 with host := [.load .red 0], awaits := true, status := .done } with
      | .refused r => decide (r = .hostBeforePoll (.load .red 0))
      | .next _ => false
      | .fault _ => false) = true := by decide
theorem test_status_read_ends_waiting :
    (nextOf (step { State.resetOf tiny 0 0 with host := [.read 1], awaits := true, status := .done })).map
      (fun t => (t.heard, t.awaits)) = some (some 2, false) := by decide

theorem test_operands_readable_before_status_read :
    (nextOf (step { State.resetOf tiny 0 0 with host := [.read 2], awaits := true, status := .done, width := 7 })).map
      (fun t => (t.heard, t.awaits)) = some (some 7, true) := by decide
theorem test_cmd_reads_zero_before_status_read :
    (nextOf (step { State.resetOf tiny 0 0 with host := [.read 0], awaits := true, status := .fault .cvDim })).map
      (fun t => t.heard) = some (some 0) := by decide

-- The length registers: LENW for MAX_PIXELS = 1024 is 13 (2^13 > 4096), for MAX_PIXELS = 1 it is 4 (2^4 > 9)

theorem test_lenw : lenw board = 13 ∧ lenw tiny = 4 := by decide

-- Witnesses: for each statement with hypotheses, states and operands that meet them

/-- A 1×1 image on the smallest instance, so that `WIDTH*HEIGHT = MAX_PIXELS`. -/
def dot : State := imageOf tiny 1 1 127 (grey [126])

/-- A 1×1 reduced array on the smallest instance. -/
def dotArray : State := arrayOf tiny 1 1 3 [255]

/-- `dot` with an access of the host pending. -/
def dotThen (op : HostOp) : State := dot.setHost [op]

/-- `dot` in the middle of `RED.D`. -/
def dotBusy : State := tick (dot.startCommand .redD)

/-- An 8×1 reduced array. -/
def rowArray (e : Byte) : State := arrayOf board 8 1 0 (List.replicate 8 e)

theorem witness_DecodeEncodeAgree : decode [0x02#8] = .ok (.enc, []) := by decide
theorem witness_FormatCFieldsDecide_ok : FormatC.wellFormed { zero := 0, unit := false, dither := true } = true := by decide
theorem witness_FormatCFieldsDecide_zero : (FormatC.mk 0b100000 false false).zero ≠ 0 := by decide
theorem witness_FormatCFieldsDecide_dither :
    (FormatC.mk 0 true true).zero = 0 ∧ (FormatC.mk 0 true true).unit = true ∧ (FormatC.mk 0 true true).dither = true := by
  decide
theorem witness_StepRunsDecodedCommand : (dotThen (.write 0 1)).host = [.write 0 1] ∧ (dotThen (.write 0 1)).HostFree ∧
    decode [BitVec.ofNat 8 1] = .ok (.redD, []) := by decide
/-- The same for a launch to be followed by small steps, with operands ready and not. -/
theorem witness_StepRunsDecodedCommand_start : (dotThen (.start 1)).host = [.start 1] ∧ (dotThen (.start 1)).HostFree ∧
    decode [1#8] = .ok (.redD, []) ∧ (dotThen (.start 1)).Ready .redD ∧
    ¬ ((dotThen (.start 1)).setPixlen 5).Ready .redD := by unfold State.Ready; decide
theorem witness_FetchWordRuns : dot.status ≠ .busy ∧ decodeTableWord 8 2 = some .enc := by decide
theorem witness_ReservedByteFaults_low :
    (dotThen (.write 0 3)).host = [.write 0 3] ∧ (dotThen (.write 0 3)).HostFree ∧ 2 < 3 % 256 := by decide
theorem witness_ReservedByteFaults_high :
    (dotThen (.write 0 255)).host = [.write 0 255] ∧ (dotThen (.write 0 255)).HostFree ∧ 2 < 255 % 256 := by decide
theorem witness_ReservedByteFaults_start :
    (dotThen (.start 3)).host = [.start (BitVec.ofNat 8 3)] ∧ (dotThen (.start 3)).HostFree ∧ 2 < 3 % 256 := by decide
/-- Also for `RedDCompletes`, `VisitedValue` (pixel 0), `WorkingValuesInRange` and `SinglePixelDither`. -/
theorem witness_RedTCompletes : dot.ReducerReady ∧ dot.pixels = dot.cfg.maxPixels ∧ 0 < dot.pixels ∧ dot.width = 1 ∧
    dot.height = 1 := by decide
theorem witness_EncCompletes : dotArray.EncoderReady ∧ dotArray.pixels = dotArray.cfg.maxPixels := by decide
theorem witness_EveryLaunchEnds_ready : dot.Ready .redD := by unfold State.Ready; decide
theorem witness_EveryLaunchEnds_not : ¬ (State.resetOf tiny 0 0).Ready .enc := by unfold State.Ready; decide
theorem witness_ReducerLaunchFaults_dim : (State.resetOf tiny 0 0).width = 0 ∨ (State.resetOf tiny 0 0).height = 0 := by decide
theorem witness_ReducerLaunchFaults_resource : (dot.setWidth 2).width ≠ 0 ∧ (dot.setWidth 2).height ≠ 0 ∧
    (dot.setWidth 2).cfg.maxPixels < (dot.setWidth 2).width.toNat * (dot.setWidth 2).height.toNat := by decide
theorem witness_ReducerLaunchFaults_len : (dot.setPixlen 3).width ≠ 0 ∧ (dot.setPixlen 3).height ≠ 0 ∧
    (dot.setPixlen 3).width.toNat * (dot.setPixlen 3).height.toNat ≤ (dot.setPixlen 3).cfg.maxPixels ∧
    (dot.setPixlen 3).pixlen ≠ 4 * ((dot.setPixlen 3).width.toNat * (dot.setPixlen 3).height.toNat) := by decide
theorem witness_EncoderLaunchFaults_dim : (dotArray.setHeight 0).width = 0 ∨ (dotArray.setHeight 0).height = 0 := by decide
theorem witness_EncoderLaunchFaults_scale :
    (dotArray.setScale 4).width ≠ 0 ∧ (dotArray.setScale 4).height ≠ 0 ∧ 3 < (dotArray.setScale 4).scale.toNat := by decide
theorem witness_EncoderLaunchFaults_resource : (dotArray.setHeight 2).width ≠ 0 ∧ (dotArray.setHeight 2).height ≠ 0 ∧
    (dotArray.setHeight 2).scale.toNat ≤ 3 ∧
    (dotArray.setHeight 2).cfg.maxPixels < (dotArray.setHeight 2).width.toNat * (dotArray.setHeight 2).height.toNat := by
  decide
theorem witness_EncoderLaunchFaults_len : (dotArray.setRedlen 0).width ≠ 0 ∧ (dotArray.setRedlen 0).height ≠ 0 ∧
    (dotArray.setRedlen 0).scale.toNat ≤ 3 ∧
    (dotArray.setRedlen 0).width.toNat * (dotArray.setRedlen 0).height.toNat ≤ (dotArray.setRedlen 0).cfg.maxPixels ∧
    (dotArray.setRedlen 0).redlen ≠ (dotArray.setRedlen 0).width.toNat * (dotArray.setRedlen 0).height.toNat := by decide
/-- Also for the three frame statements: a launch that answers a next state, here by a fault. -/
theorem witness_FaultChangesOnlyStatus :
    ∃ t, exec .enc (dotArray.setScale 4) = .next t ∧ t.status = .fault .cvScale := ⟨_, rfl, rfl⟩
/-- Also for `ThresholdExtremes` at `CONTRAST` 0 and 255. -/
theorem witness_RedTFrame :
    (∃ t, exec .redT (dot.setContrast 0) = .next t ∧ t.status = .done ∧ (dot.setContrast 0).contrast = 0) ∧
      ∃ t, exec .redT (dot.setContrast 255) = .next t ∧ t.status = .done ∧ (dot.setContrast 255).contrast = 255 :=
  ⟨⟨_, rfl, rfl, rfl⟩, ⟨_, rfl, rfl, rfl⟩⟩
theorem witness_RedDFrame : ∃ t, exec .redD dot = .next t ∧ t.status = .done := ⟨_, rfl, rfl⟩
/-- Also for `FlatBitStream`, `HeaderFieldsLittleEndian`, `SwappedSizesPackAlike` and `FrameLength` (`HEIGHT` 1). -/
theorem witness_EncFrame : ∃ t, exec .enc dotArray = .next t ∧ t.status = .done ∧ 0 < 8 * ceilDiv dotArray.pixels 8 ∧
    dotArray.height.toNat = 1 := ⟨_, rfl, rfl, by decide, by decide⟩
/-- Two states that differ in alpha, in `SCALE` and in what `WORK` held, and agree on the input of the reducer. -/
theorem witness_RedTPure : SameReducerInput dot (((dot.setScale 2).putPix 3 9).putWork 0 77) ∧
    (∃ t, exec .redT dot = .next t ∧ t.status = .done) ∧
    ∃ t, exec .redT (((dot.setScale 2).putPix 3 9).putWork 0 77) = .next t := by
  refine ⟨⟨rfl, rfl, rfl, rfl, rfl, fun k hk h3 => ?_⟩, ⟨_, rfl, rfl⟩, ⟨_, rfl⟩⟩
  have hk : k < 4 := hk
  interval_cases k <;> first | rfl | omega
theorem witness_RedDPure : ∃ t t', exec .redD dot = .next t ∧ t.status = .done ∧
    exec .redD (((dot.setScale 2).putPix 3 9).putWork 0 77) = .next t' := ⟨_, _, rfl, rfl, rfl⟩
theorem witness_EncPure : SameEncoderInput dotArray ((dotArray.setContrast 9).setPixlen 5) ∧
    (∃ t, exec .enc dotArray = .next t ∧ t.status = .done) ∧
    ∃ t, exec .enc ((dotArray.setContrast 9).setPixlen 5) = .next t :=
  ⟨⟨rfl, rfl, rfl, rfl, rfl, fun _ _ => rfl⟩, ⟨_, rfl, rfl⟩, ⟨_, rfl⟩⟩
theorem witness_ScalePassthrough : ∃ t t', exec .enc dotArray = .next t ∧ t.status = .done ∧
    exec .enc (dotArray.setScale 0) = .next t' ∧ t'.status = .done := ⟨_, _, rfl, rfl, rfl, rfl⟩
theorem witness_UniformArraysPack_zero : (∃ t, exec .enc (rowArray 0) = .next t ∧ t.status = .done) ∧
    (rowArray 0).pixels = 8 ∧ ∀ p < 8, (rowArray 0).redAt p = 0 := ⟨⟨_, rfl, rfl⟩, by decide, by decide⟩
theorem witness_UniformArraysPack_set : (∃ t, exec .enc dotArray = .next t ∧ t.status = .done) ∧ dotArray.pixels = 1 ∧
    (∀ p < 1, dotArray.redAt p ≠ 0) ∧ dotArray.pixels % 8 ≠ 0 := ⟨⟨_, rfl, rfl⟩, by decide, by decide, by decide⟩
/-- Also for `FrameLength` at a multiple of 8. -/
theorem witness_AlignedRowsOwnBytes : (∃ t, exec .enc (rowArray 7) = .next t ∧ t.status = .done) ∧
    (rowArray 7).width.toNat % 8 = 0 ∧ 0 < (rowArray 7).height.toNat ∧ 0 < bytesPerRow (rowArray 7).width.toNat :=
  ⟨⟨_, rfl, rfl⟩, by decide, by decide, by decide⟩
theorem witness_LuminanceExact : (1 : Byte) ≤ 255 ∧ (0 : Byte) ≤ 0 := by decide
theorem witness_TapsReachSixPixels : 4 ≤ (imageOf board 4 2 0 []).width.toNat ∧ 7 < (imageOf board 4 2 0 []).pixels ∧
    4 * (imageOf board 4 2 0 []).pixels ≤ 32 ∧ 5 % 4 ≠ 0 := by decide
theorem witness_CoincidentTapsAccumulate : (imageOf board 1 3 0 []).width = 1 ∧ 2 < (imageOf board 1 3 0 []).pixels ∧
    (imageOf board 2 3 0 []).width = 2 ∧ 4 < (imageOf board 2 3 0 []).pixels ∧
    (imageOf board 3 3 0 []).width = 3 ∧ 6 < (imageOf board 3 3 0 []).pixels ∧
    4 * (imageOf board 1 3 0 []).pixels ≤ 12 ∧ 5 % 4 ≠ 0 := by decide
theorem witness_SmallStepsComposeToCommand :
    dot.Ready .redT ∧ dot.Ready .redD ∧ dotArray.Ready .enc ∧ 0 < dotArray.smallSteps .enc ∧
    (dotThen (.start 0)).HostFree ∧ (dotThen (.start 0)).Ready .redT ∧ decode [0#8] = .ok (.redT, []) ∧
    (dot.setHost [.start 1, .wait]).HostFree ∧ (dot.setHost [.start 1, .wait]).Ready .redD ∧
    decode [1#8] = .ok (.redD, []) := by
  unfold State.Ready; decide
theorem witness_FailedLaunchTakesNoSmallStep : ¬ (dot.setPixlen 5).Ready .redT := by unfold State.Ready; decide
theorem witness_SequencerMovesOnlyWhileBusy :
    dotBusy.host = [] ∧ dotBusy.status = .busy ∧ dot.host = [] ∧ dot.status ≠ .busy := by decide
theorem witness_SequencerMovesOnlyWhileBusy_wait :
    (dotBusy.setHost [.wait]).status = .busy ∧ (dotThen .wait).status = .idle ∧ (dotThen .wait).host = [.wait] ∧
    (dotThen .pause).host = [.pause] ∧ (dotBusy.setHost [.pause]).status = .busy ∧
    ((dotThen .wait).setStatus .done).status = .done ∧
    ((dotThen .wait).setStatus (.fault .cvLen)).status = .fault .cvLen := by decide
theorem witness_HostRefusedWhileBusy : (dotBusy.setHost [.store .pix 0 1]).status = .busy ∧
    (dotBusy.setHost [.store .pix 0 1]).host = [.store .pix 0 1] ∧ (dotBusy.setHost [.read 2]).host = [.read 2] ∧
    (2 : Nat) ≠ 1 := by decide
theorem witness_HostRefusedWhileBusy_unread : ((dotThen (.load .red 0)).setAwaits true).host = [.load .red 0] ∧
    ((dotThen (.load .red 0)).setAwaits true).status ≠ .busy ∧
    ((dotThen (.load .red 0)).setAwaits true).awaits = true ∧
    ((dotThen (.write 8 0)).setAwaits true).host = [.write 8 0] ∧ 8 ≤ 8 ∧
    ((dotThen (.read 6)).setAwaits true).host = [.read 6] := by decide
theorem witness_StatusReadableAlways : (dotBusy.setHost [.read 1]).host = [.read 1] := by decide
theorem witness_RegisterReads : (dotThen (.read 9)).host = [.read 9] ∧ (dotThen (.read 9)).HostFree := by decide
theorem witness_RegisterReads_unread : ((dotThen (.read 0)).setAwaits true).host = [.read 0] ∧
    ((dotThen (.read 0)).setAwaits true).status ≠ .busy ∧ ((dotThen (.read 0)).setAwaits true).awaits = true ∧
    (0 : Nat) ≠ 6 ∧ (0 : Nat) ≠ 7 ∧ (0 : Nat) ≠ 8 := by decide
theorem witness_RegisterWrites_unread : ((dotThen (.write 9 1)).setAwaits true).host = [.write 9 1] ∧
    ((dotThen (.write 9 1)).setAwaits true).status ≠ .busy ∧ 9 ≤ 9 ∧ (9 : Nat) ≠ 0 := by decide
theorem witness_RegisterWrites : (dotThen (.write 2 (2 ^ 32 - 1))).host = [.write 2 (2 ^ 32 - 1)] ∧
    (dotThen (.write 2 (2 ^ 32 - 1))).HostFree ∧ 2 ^ 32 - 1 < 2 ^ 32 ∧ 255 < 2 ^ 8 ∧ 15 < 2 ^ lenw dot.cfg := by decide
theorem witness_ElementWrites : (dotThen (.store .pix 3 1)).host = [.store .pix 3 1] ∧
    (dotThen (.store .pix 3 1)).HostFree ∧ 3 < bufferSize tiny .pix ∧ bufferSize tiny .pix ≤ 4 ∧
    0 < bufferSize tiny .red ∧ bufferSize tiny .red ≤ 1 ∧ 8 < bufferSize tiny .frame ∧ bufferSize tiny .frame ≤ 9 := by decide
theorem witness_ElementReads : (dotThen (.load .pix 3)).host = [.load .pix 3] ∧ (dotThen (.load .pix 3)).HostFree ∧
    3 < bufferSize tiny .pix ∧ bufferSize tiny .pix ≤ 4 ∧ 8 < bufferSize tiny .frame ∧ bufferSize tiny .frame ≤ 9 ∧
    0 < bufferSize tiny .red ∧ bufferSize tiny .red ≤ 1 := by decide
theorem witness_ConvertRunsBothUnits : (dot.setHost cvtD).HostFree ∧ (dot.setHost cvtD).host = cvtD ++ [] ∧
    (dot.setHost cvtD).ReducerReady ∧ (dot.setHost cvtD).scale.toNat ≤ 3 ∧
    3 < ((dot.setHost cvtD).setScale 4).scale.toNat ∧ ¬ ((dot.setHost cvtD).setPixlen 0).ReducerReady := by decide
theorem witness_ResetAbandonsCommand : (dotBusy.setHost [.reset]).host = [.reset] := by decide
theorem witness_StepKeepsInv : dot.Inv ∧ ∃ t, step (dot.setHost []) = .next t := by
  refine ⟨⟨by decide, by decide, by decide, by decide, by decide, by decide, by decide, by decide, fun c hc => ?_, by decide,
    by decide, by decide, by decide, by decide, ⟨by decide, rfl⟩⟩, ⟨_, rfl⟩⟩
  simp [dot, imageOf, State.resetOf] at hc
/-- A step that meets the hypotheses of `ParametersNeverChange`, `OperandsHostOwned`, `PixelsHostOwned`, `FrameImmutable` and
`ReducedArrayKept`: a read of `WIDTH`. -/
theorem witness_WholeMachineRules : (∃ t, step (dotThen (.read 2)) = .next t) ∧ (dotThen (.read 2)).host = [.read 2] ∧
    (dotThen (.read 2)).scan = .idle := ⟨⟨_, rfl⟩, by decide, by decide⟩
theorem witness_InstancesShareNothing : (∃ after, stepInstance [dot, dotArray] 0 = .next after) ∧ (1 : Nat) ≠ 0 ∧
    [dot, dotArray][0]? = some dot ∧ ∃ t, step dot = .next t :=
  ⟨⟨_, rfl⟩, by decide, rfl, ⟨_, rfl⟩⟩

end Sys2Proof.Tests
end

section
/-! PROOFS. The obligations of spec/00_scope.md: the parameters (R6, R20), and a command's big step as the
composition of its small steps (R10, R238). -/

namespace Sys2Proof.Machine

-- The parameters (R6, R20)

theorem State.writeReg_cfg (s : State) (r v : Nat) : (s.writeReg r v).cfg = s.cfg := by
  unfold State.writeReg
  split <;> rfl

theorem State.hostStore_cfg (s : State) (b : Buffer) (k : Nat) (v : Byte) : (s.hostStore b k v).cfg = s.cfg := by
  cases b <;> rfl

theorem StepEffect.cfg_eq {s t : State} (h : StepEffect s t) : t.cfg = s.cfg := by
  cases h with
  | hostOnly l x a ha ht => rw [ht]; rfl
  | smallStep l x a hb ha ht => rw [ht]; exact (tick_keeps (s.onHost l x a)).cfg
  | launch i v rest hh hf hd ht => exact (exec_keeps ht).cfg
  | start i v rest hh hf hd ht => rw [ht]; exact (startCommand_keeps (s.onHost rest s.heard true) i).cfg
  | reserved rest hf ht => rw [ht]; rfl
  | writeReg r v rest hh hb hw hr ht => rw [ht]; exact (s.setHost rest).writeReg_cfg r v
  | store b k v rest hh hf hk ht => rw [ht]; exact (s.setHost rest).hostStore_cfg b k v
  | reset rest hh ht => rw [ht]; rfl

/-- Settles O54: the parameters are kept by everything a step can have done. -/
theorem parametersNeverChange : Obligations.ParametersNeverChange := fun _ _ h => (step_effect h).cfg_eq

/-- Settles O46: `LENW` is one more than the binary logarithm of the larger of the two lengths. -/
theorem lengthWidthSmallest : Obligations.LengthWidthSmallest := by
  intro c n
  have hpos : max (4 * c.maxPixels) (8 + ceilDiv c.maxPixels 8) ≠ 0 := by omega
  rw [lenw, Nat.succ_le_iff, Nat.log2_lt hpos, max_lt_iff]

-- The passes (R26): items that do not touch the counter

theorem applyTap_setScan (j d : Nat) (s : State) (c : Scan) :
    applyTap j (s.setScan c) d = (applyTap j s d).setScan c := by
  unfold applyTap
  dsimp only
  by_cases ht : j + d < s.tmp.n
  · rw [if_pos ht, if_pos (show j + d < (s.setScan c).tmp.n from ht)]; rfl
  · rw [if_neg ht, if_neg (show ¬ j + d < (s.setScan c).tmp.n from ht)]; rfl

theorem applyTaps_setScan (j : Nat) (ds : List Nat) (s : State) (c : Scan) :
    ds.foldl (applyTap j) (s.setScan c) = (ds.foldl (applyTap j) s).setScan c :=
  List.foldl_hom (State.setScan · c) fun t d => applyTap_setScan j d t c

theorem diffusePixel_setScan (p : Nat) (s : State) (c : Scan) :
    diffusePixel p (s.setScan c) = (diffusePixel p s).setScan c := by
  have hq : quantiseTemps p (s.setScan c) = quantiseTemps p s := rfl
  unfold diffusePixel
  dsimp only
  rw [← applyTaps_setScan, hq]
  rfl

theorem headerStep_setScan (k : Nat) (s : State) (c : Scan) :
    headerStep k (s.setScan c) = (headerStep k s).setScan c := by
  rw [headerStep_eq, headerStep_eq, headerByte_of_temps, headerByte_of_temps]
  rfl

theorem State.finishReduce_setScan (s : State) (c : Scan) : (s.setScan c).finishReduce = s.finishReduce := rfl

theorem diffusePixel_status (p : Nat) (s : State) : (diffusePixel p s).status = s.status := by
  obtain ⟨w, m, h⟩ := diffusePixel_only p s
  rw [h]

/-- `Runs n s t`: `n` small steps lead from `s` to `t`, and `STATUS` is `BUSY` before each of them. -/
inductive Runs : Nat → State → State → Prop where
  | zero (s : State) : Runs 0 s s
  | succ {n : Nat} {s t : State} (busy : s.status = .busy) (rest : Runs n (tick s) t) : Runs (n + 1) s t

theorem Runs.ticks_eq {n : Nat} {s t : State} (h : Runs n s t) : ticks n s = t := by
  induction h with
  | zero s => rfl
  | succ _ _ ih => exact ih

theorem Runs.busy {n : Nat} {s t : State} (h : Runs n s t) : ∀ k < n, (ticks k s).status = .busy := by
  induction h with
  | zero s => exact fun k hk => absurd hk k.not_lt_zero
  | succ hb _ ih =>
    intro k hk
    cases k with
    | zero => exact hb
    | succ k => exact ih k (Nat.lt_of_succ_lt_succ hk)

theorem Runs.trans {m n : Nat} {s t u : State} (h : Runs m s t) (g : Runs n t u) : Runs (m + n) s u := by
  induction h with
  | zero s => rwa [Nat.zero_add]
  | succ hb _ ih => rw [Nat.succ_add]; exact .succ hb (ih g)

/-- The small steps run the pass `loop body` (R26): the counter stands at `counter p` before item `p`, there are `size` items,
and the step that does the last of them also does `last`. -/
structure IsPass (body : Nat → State → State) (counter : Nat → Scan) (size : State → Nat) (last : State → State) : Prop where
  status_eq : ∀ p s, (body p s).status = s.status
  size_eq : ∀ p s, size (body p s) = size s
  tick_eq : ∀ p s, tick (s.setScan (counter p)) =
    if p + 1 < size s then (body p s).setScan (counter (p + 1)) else last (body p s)

section Pass

variable {body : Nat → State → State} {counter : Nat → Scan} {size : State → Nat} {last : State → State}

/-- From item `p` on, the small steps of a pass do its remaining `n + 1` items. -/
theorem IsPass.runs_from (h : IsPass body counter size last) (n p : Nat) (s : State) (hb : s.status = .busy)
    (hn : p + (n + 1) = size s) : Runs (n + 1) (s.setScan (counter p)) (last (loop body (n + 1) p s)) := by
  induction n generalizing p s with
  | zero =>
    refine .succ hb ?_
    rw [h.tick_eq, if_neg (by omega)]
    exact .zero _
  | succ n ih =>
    refine .succ hb ?_
    rw [h.tick_eq, if_pos (by omega)]
    exact ih (p + 1) (body p s) ((h.status_eq p s).trans hb) (by rw [h.size_eq]; omega)

theorem IsPass.runs (h : IsPass body counter size last) {s : State} (hb : s.status = .busy) (hc : 0 < size s) :
    Runs (size s) (s.setScan (counter 0)) (last (loop body (size s) 0 s)) := by
  obtain ⟨n, hn⟩ := Nat.exists_eq_add_one_of_ne_zero hc.ne'
  rw [hn]
  exact h.runs_from n 0 s hb (by omega)

end Pass

theorem threshold_isPass : IsPass thresholdPixel .threshold State.pixels State.finishReduce where
  status_eq _ _ := rfl
  size_eq _ _ := rfl
  tick_eq _ _ := rfl

theorem luminance_isPass : IsPass lumPixel .luminance State.pixels (State.setScan · (.diffusion 0)) where
  status_eq _ _ := rfl
  size_eq _ _ := rfl
  tick_eq _ _ := rfl

theorem diffusion_isPass : IsPass diffusePixel .diffusion State.pixels State.finishReduce where
  status_eq := diffusePixel_status
  size_eq p s := (diffusePixel_keeps p s).pixels
  tick_eq p s := by
    simp only [tick, State.setScan_scan, State.setScan_pixels, diffusePixel_setScan, State.setScan_setScan,
      State.finishReduce_setScan]

theorem header_isPass : IsPass headerStep .header (fun _ => 8) (State.setScan · (.bitmap 0)) where
  status_eq _ _ := rfl
  size_eq _ _ := rfl
  tick_eq k s := by
    simp only [tick, State.setScan_scan, headerStep_setScan, State.setScan_setScan]

theorem bitmap_isPass : IsPass bitmapStep .bitmap State.packedBytes State.finishEncode where
  status_eq _ _ := rfl
  size_eq _ _ := rfl
  tick_eq _ _ := rfl

-- The commands (R62, R238)

/-- What a launch of a command does once its checks have passed. -/
def runCommand : Instr → State → State
  | .redT => runRedT
  | .redD => runRedD
  | .enc => runEnc

theorem exec_eq_launch (i : Instr) (s : State) : exec i s = s.launch (s.launchCheck i) (runCommand i) := by
  cases i <;> rfl

theorem launchCheck_eq_none_iff (s : State) (i : Instr) : s.launchCheck i = none ↔ s.Ready i := by
  cases i with
  | redT => exact reducerCheck_eq_none_iff s
  | redD => exact reducerCheck_eq_none_iff s
  | enc => exact encoderCheck_eq_none_iff s

theorem exec_of_ready {i : Instr} {s : State} (h : s.Ready i) : exec i s = .next (runCommand i s.begin) := by
  rw [exec_eq_launch, (launchCheck_eq_none_iff s i).mpr h, launch_run]

theorem startCommand_of_ready {i : Instr} {s : State} (h : s.Ready i) :
    s.startCommand i = s.begin.setScan (firstScan i) := by
  rw [State.startCommand, (launchCheck_eq_none_iff s i).mpr h]

theorem runCommand_status (i : Instr) (s : State) : (runCommand i s).status = .done := by
  cases i with
  | redT => exact runRedT_status s
  | redD => exact runRedD_status s
  | enc => exact runEnc_status s

theorem pixels_pos_of_ready {i : Instr} {s : State} (h : s.Ready i) : 0 < s.pixels := by
  obtain ⟨hw, hh⟩ : s.width ≠ 0 ∧ s.height ≠ 0 := by cases i <;> exact ⟨h.1, h.2.1⟩
  exact pixels_pos hw hh

theorem packedBytes_pos {s : State} (h : 0 < s.pixels) : 0 < s.packedBytes := by
  unfold State.packedBytes ceilDiv
  omega

theorem runRedT_runs {s : State} (hb : s.status = .busy) (hp : 0 < s.pixels) :
    Runs s.pixels (s.setScan (.threshold 0)) (runRedT s) := threshold_isPass.runs hb hp

/-- R133: pass 1, then pass 2 in the state it leaves. -/
theorem runRedD_runs {s : State} (hb : s.status = .busy) (hp : 0 < s.pixels) :
    Runs (2 * s.pixels) (s.setScan (.luminance 0)) (runRedD s) := by
  have hpix : (luminancePass s).pixels = s.pixels := loop_frame State.pixels luminance_isPass.size_eq s.pixels 0 s
  have hbusy : (luminancePass s).status = .busy :=
    (loop_frame State.status luminance_isPass.status_eq s.pixels 0 s).trans hb
  have hdiff := diffusion_isPass.runs hbusy (hpix.symm ▸ hp)
  rw [hpix] at hdiff
  rw [Nat.two_mul]
  exact (luminance_isPass.runs hb hp).trans hdiff

/-- R177: the header, then the bitmap in the state it leaves. -/
theorem runEnc_runs {s : State} (hb : s.status = .busy) (hp : 0 < s.pixels) :
    Runs (8 + s.packedBytes) (s.setScan (.header 0)) (runEnc s) := by
  have hbytes : (loop headerStep 8 0 s).packedBytes = s.packedBytes :=
    loop_frame State.packedBytes (fun k t => congrArg (ceilDiv · 8) (headerStep_keeps k t).pixels) 8 0 s
  have hbusy : (loop headerStep 8 0 s).status = .busy :=
    (loop_frame State.status header_isPass.status_eq 8 0 s).trans hb
  have hheader := header_isPass.runs hb (Nat.zero_lt_succ 7)
  have hbitmap := bitmap_isPass.runs hbusy (hbytes.symm ▸ packedBytes_pos hp)
  rw [hbytes] at hbitmap
  rw [runEnc]
  exact hheader.trans hbitmap

/-- R238: the small steps of a launched command run it. -/
theorem startCommand_runs {i : Instr} {s : State} (h : s.Ready i) :
    Runs (s.smallSteps i) (s.startCommand i) (runCommand i s.begin) := by
  have hp : 0 < s.begin.pixels := pixels_pos_of_ready h
  rw [startCommand_of_ready h]
  cases i with
  | redT => exact runRedT_runs rfl hp
  | redD => exact runRedD_runs rfl hp
  | enc => exact runEnc_runs rfl hp

-- The machine's own steps (R93, R230)

theorem State.Ready.onHost {i : Instr} {s : State} (h : s.Ready i) (l : List HostOp) (x : Option Nat) (a : Bool) :
    (s.onHost l x a).Ready i := by
  cases i <;> exact h

theorem smallSteps_onHost (i : Instr) (s : State) (l : List HostOp) (x : Option Nat) (a : Bool) :
    (s.onHost l x a).smallSteps i = s.smallSteps i := by
  cases i <;> rfl

/-- The small steps of a command launched beside another host end in the same block beside that host. -/
theorem startCommand_onHost_runs {i : Instr} {s : State} (h : s.Ready i) (l : List HostOp) (x : Option Nat) (a : Bool) :
    Runs (s.smallSteps i) ((s.onHost l x a).startCommand i) ((runCommand i s.begin).onHost l x a) := by
  have hexec := exec_onHost l x a (exec_of_ready h)
  rw [exec_of_ready (h.onHost l x a)] at hexec
  rw [← smallSteps_onHost i s l x a, ← Host.Outcome.next.inj hexec]
  exact startCommand_runs (h.onHost l x a)

theorem step_of_start {i : Instr} {s : State} {v : Byte} {rest : List HostOp} (hf : s.HostFree)
    (hh : s.host = .start v :: rest) (hd : decode [v] = .ok (i, [])) :
    step s = .next ((s.onHost rest s.heard true).startCommand i) := by
  rw [step_of_host hh (hostRefusal_of_free hf _), HostOp.move, State.start, (decodeByte_eq_some_iff v i).mpr hd,
    Move.outcome_settle]
  rfl

theorem step_of_nil_busy {s : State} (hh : s.host = []) (hb : s.status = .busy) : step s = .next (tick s) := by
  rw [step_of_nil hh, State.advance, if_pos hb]

theorem tick_setHeard (s : State) (x : Option Nat) : tick (s.setHeard x) = (tick s).setHeard x := by
  have hk := tick_keeps s
  calc tick (s.setHeard x) = (tick s).onHost s.host x s.awaits := tick_onHost s.host x s.awaits s
    _ = (tick s).setHeard x := by rw [← hk.host, ← hk.awaits]; rfl

theorem step_of_wait {s : State} {rest : List HostOp} (hh : s.host = .wait :: rest) :
    step s = .next (s.setHost rest).poll := step_of_host hh (hostRefusal_of_allowedWhileBusy s rfl)

/-- While `BUSY` a poll of `WAIT` reads `STATUS`, stays pending, and lets the sequencer make one small step (R93). -/
theorem step_of_wait_busy {s : State} {rest : List HostOp} (hh : s.host = .wait :: rest) (hb : s.status = .busy) :
    step s = .next ((tick s).setHeard (some 0x01)) := by
  have hread : (s.setHost rest).readStatus.setHost (.wait :: rest) = s.setHeard (some 0x01) := by
    simp only [State.readStatus, State.readReg, State.setHost_status, State.setHost_awaits, hb, decide_true,
      Bool.and_true, ← hh]
    rfl
  have hpoll : (s.setHost rest).poll = (s.setHeard (some 0x01)).advance := by
    rw [State.poll, State.setHost_status, hb, ← hread]
    rfl
  rw [step_of_wait hh, hpoll, State.advance, State.setHeard_status, if_pos hb, tick_setHeard]

/-- The poll of `WAIT` that reads `DONE` is its last (R93). -/
theorem step_of_wait_done {s : State} {rest : List HostOp} (hh : s.host = .wait :: rest) (hd : s.status = .done) :
    step s = .next (s.onHost rest (some 0x02) false) := by
  have hread : (s.setHost rest).readStatus = s.onHost rest (some 0x02) false := by
    simp only [State.readStatus, State.readReg, State.setHost_status, State.setHost_awaits, hd, reduceCtorEq,
      decide_false, Bool.and_false]
    rfl
  rw [step_of_wait hh, State.poll, State.setHost_status, hd, ← hread]

/-- With no access pending, the machine's steps are the small steps. -/
theorem run_of_nil {n : Nat} {s t : State} (h : Runs n s t) (hh : s.host = []) :
    Host.Core.run Sys2Proof.core n s = .next t := by
  induction h with
  | zero s => rfl
  | @succ n s t hb _ ih =>
    rw [core_run_succ n s _ (step_of_nil_busy hh hb)]
    exact ih ((tick_keeps s).host.trans hh)

/-- A host that waits polls once per small step, and once more to read `DONE`. -/
theorem run_of_wait {n : Nat} {s t : State} {rest : List HostOp} (h : Runs n s t) (hh : s.host = .wait :: rest)
    (hd : t.status = .done) (x : Option Nat) :
    Host.Core.run Sys2Proof.core (n + 1) (s.setHeard x) = .next (t.onHost rest (some 0x02) false) := by
  induction h generalizing x with
  | zero s =>
    rw [core_run_succ 0 _ _ (step_of_wait_done (s := s.setHeard x) hh hd)]
    rfl
  | @succ n s t hb _ ih =>
    have hstep := step_of_wait_busy (s := s.setHeard x) hh hb
    rw [tick_setHeard, State.setHeard_setHeard] at hstep
    rw [core_run_succ (n + 1) _ _ hstep]
    exact ih ((tick_keeps s).host.trans hh) hd (some 0x01)

/-- Settles O38: each command is one pass or two in sequence, whose small steps are the items of its loops, and the machine's
own steps make them one by one, with nothing pending and under a `WAIT`. -/
theorem smallStepsComposeToCommand : Obligations.SmallStepsComposeToCommand := by
  intro i s hr
  have hexec := exec_of_ready hr
  refine ⟨(startCommand_runs hr).busy, ?_, ?_, ?_⟩
  · rw [(startCommand_runs hr).ticks_eq, hexec]
  · intro v hf hh hd
    rw [Nat.add_comm, core_run_succ _ _ _ (step_of_start hf hh hd),
      run_of_nil (startCommand_onHost_runs hr [] s.heard true) (startCommand_keeps _ i).host]
    exact (exec_onHost [] s.heard true hexec).symm
  · intro v rest hf hh hd
    have hruns := startCommand_onHost_runs hr (.wait :: rest) s.heard true
    refine ⟨_, hexec, ?_⟩
    rw [Nat.add_right_comm, Nat.add_comm _ (s.smallSteps i), core_run_succ _ _ _ (step_of_start hf hh hd)]
    exact run_of_wait hruns (startCommand_keeps _ i).host (runCommand_status i s.begin) _

end Sys2Proof.Machine
end

section
/-! PROOFS. The invariant (spec/10_state.md R20 to R30): it holds at reset, and every step keeps it. -/

namespace Sys2Proof.Machine

-- The lengths and `LENW` (R6, R22)

theorem ceilDiv_mono {a b : Nat} (n : Nat) (h : a ≤ b) : ceilDiv a n ≤ ceilDiv b n :=
  Nat.div_le_div_right (by omega)

theorem lt_two_pow_lenw (c : Config) :
    4 * c.maxPixels < 2 ^ lenw c ∧ 8 + ceilDiv c.maxPixels 8 < 2 ^ lenw c :=
  (lengthWidthSmallest c (lenw c)).mp le_rfl

theorem State.ReducerReady.pixels_le {s : State} (h : s.ReducerReady) : s.pixels ≤ s.cfg.maxPixels := by
  obtain ⟨-, -, hpixels, -⟩ := h
  exact hpixels

theorem State.EncoderReady.packedBytes_le {s : State} (h : s.EncoderReady) :
    s.packedBytes ≤ ceilDiv s.cfg.maxPixels 8 := by
  obtain ⟨-, -, -, hpixels, -⟩ := h
  exact ceilDiv_mono 8 hpixels

-- What `ScanLegal` says at each value of the counter (R26)

section Counter

variable {s : State} {p k : Nat}

theorem scanLegal_of_idle (hc : s.scan = .idle) : s.ScanLegal ↔ s.status ≠ .busy ∧ s.tmp = Temps.dead := by
  rw [State.ScanLegal, hc]

theorem scanLegal_of_threshold (hc : s.scan = .threshold p) :
    s.ScanLegal ↔ s.status = .busy ∧ s.ReducerReady ∧ p < s.pixels := by
  rw [State.ScanLegal, hc]

theorem scanLegal_of_luminance (hc : s.scan = .luminance p) :
    s.ScanLegal ↔ s.status = .busy ∧ s.ReducerReady ∧ p < s.pixels ∧
      ∀ q < p, (Memory.get? s.work (4 * q)).isSome = true := by
  rw [State.ScanLegal, hc]

theorem scanLegal_of_diffusion (hc : s.scan = .diffusion p) :
    s.ScanLegal ↔ s.status = .busy ∧ s.ReducerReady ∧ p < s.pixels ∧
      ∀ q < s.pixels, (Memory.get? s.work (4 * q)).isSome = true := by
  rw [State.ScanLegal, hc]

theorem scanLegal_of_header (hc : s.scan = .header k) :
    s.ScanLegal ↔ s.status = .busy ∧ s.EncoderReady ∧ k < 8 := by
  rw [State.ScanLegal, hc]

theorem scanLegal_of_bitmap (hc : s.scan = .bitmap k) :
    s.ScanLegal ↔ s.status = .busy ∧ s.EncoderReady ∧ k < s.packedBytes := by
  rw [State.ScanLegal, hc]

end Counter

theorem State.ScanLegal.idle_iff {s : State} (h : s.ScanLegal) : s.scan = .idle ↔ s.status ≠ .busy := by
  cases hc : s.scan with
  | idle => simpa using ((scanLegal_of_idle hc).mp h).1
  | threshold p => simpa using ((scanLegal_of_threshold hc).mp h).1
  | luminance p => simpa using ((scanLegal_of_luminance hc).mp h).1
  | diffusion p => simpa using ((scanLegal_of_diffusion hc).mp h).1
  | header k => simpa using ((scanLegal_of_header hc).mp h).1
  | bitmap k => simpa using ((scanLegal_of_bitmap hc).mp h).1

/-- The temporaries are free while `BUSY` (R25), and a written slot of `WORK` stays written (R28). -/
theorem State.ScanLegal.update {s : State} (h : s.ScanLegal) {w : List (Nat × Int)} {m : Temps}
    (hm : s.status ≠ .busy → m = s.tmp)
    (hw : ∀ k, (Memory.get? s.work k).isSome = true → (Memory.get? w k).isSome = true) :
    ({ s with work := w, tmp := m } : State).ScanLegal := by
  cases hc : s.scan with
  | idle =>
    obtain ⟨hb, ht⟩ := (scanLegal_of_idle hc).mp h
    exact (scanLegal_of_idle rfl).mpr ⟨hb, (hm hb).trans ht⟩
  | threshold p => exact (scanLegal_of_threshold rfl).mpr ((scanLegal_of_threshold hc).mp h)
  | luminance p =>
    obtain ⟨hb, hr, hp, hs⟩ := (scanLegal_of_luminance hc).mp h
    exact (scanLegal_of_luminance rfl).mpr ⟨hb, hr, hp, fun q hq => hw _ (hs q hq)⟩
  | diffusion p =>
    obtain ⟨hb, hr, hp, hs⟩ := (scanLegal_of_diffusion hc).mp h
    exact (scanLegal_of_diffusion rfl).mpr ⟨hb, hr, hp, fun q hq => hw _ (hs q hq)⟩
  | header k => exact (scanLegal_of_header rfl).mpr ((scanLegal_of_header hc).mp h)
  | bitmap k => exact (scanLegal_of_bitmap rfl).mpr ((scanLegal_of_bitmap hc).mp h)

-- The invariant and the operations on the state

section Operations

variable {s : State} (h : s.Inv)
include h

theorem State.Inv.onHost (l : List HostOp) (x : Option Nat) {a : Bool} (ha : s.status = .busy → a = true) :
    (s.onHost l x a).Inv := { h with busyAwaited := ha }

theorem State.Inv.putRed {k : Nat} (v : Byte) (hk : k < s.cfg.maxPixels) : (s.putRed k v).Inv :=
  { h with
    redCanonical := Memory.wf_put k v h.redCanonical
    redWithin := Memory.within_put v hk h.redWithin }

theorem State.Inv.putPix {k : Nat} (v : Byte) (hk : k < 4 * s.cfg.maxPixels) : (s.putPix k v).Inv :=
  { h with
    pixCanonical := Memory.wf_put k v h.pixCanonical
    pixWithin := Memory.within_put v hk h.pixWithin }

theorem State.Inv.putFrame {k : Nat} (v : Byte) (hk : k < 8 + ceilDiv s.cfg.maxPixels 8) : (s.putFrame k v).Inv :=
  { h with
    frameCanonical := Memory.wf_put k v h.frameCanonical
    frameWithin := Memory.within_put v hk h.frameWithin }

theorem State.Inv.putWork {k : Nat} (v : Int) (hk : k < 4 * s.cfg.maxPixels) (h4 : k % 4 = 0) :
    (s.putWork k v).Inv :=
  { h with
    workCanonical := Memory.wf_put k v h.workCanonical
    workWithin := Memory.within_put v hk h.workWithin
    workAligned := Memory.aligned_put v h4 h.workAligned
    scanLegal := h.scanLegal.update (fun _ => rfl) fun _ => Memory.isSome_get?_put k v }

theorem State.Inv.setTmp (hb : s.status = .busy) (m : Temps) : (s.setTmp m).Inv :=
  { h with scanLegal := h.scanLegal.update (absurd hb) fun _ => id }

theorem State.Inv.setScan {c : Scan} (hc : (s.setScan c).ScanLegal) : (s.setScan c).Inv :=
  { h with scanLegal := hc }

/-- A state at rest stays legal whatever happens to its registers, as long as it stays at rest. -/
theorem State.Inv.scanLegal_at_rest (hb : s.status ≠ .busy) {t : State} (hc : t.scan = s.scan) (ht : t.tmp = s.tmp)
    (hs : t.status ≠ .busy) : t.ScanLegal := by
  have hidle := h.scanLegal.idle_iff.mpr hb
  exact (scanLegal_of_idle (hc.trans hidle)).mpr ⟨hs, ht.trans ((scanLegal_of_idle hidle).mp h.scanLegal).2⟩

/-- A launch that faults (R204) leaves the block at rest. -/
theorem State.Inv.setStatus_fault (hb : s.status ≠ .busy) (c : LaunchFault) : (s.setStatus (.fault c)).Inv :=
  { h with
    busyAwaited := nofun
    scanLegal := h.scanLegal_at_rest hb rfl rfl nofun }

theorem State.Inv.finishReduce (hr : s.ReducerReady) : s.finishReduce.Inv where
  __ := h
  redlenFits := by
    have hlenw := lt_two_pow_lenw s.cfg
    have hpixels := hr.pixels_le
    show s.pixels < 2 ^ lenw s.cfg
    omega
  busyAwaited := nofun
  scanLegal := (scanLegal_of_idle rfl).mpr ⟨nofun, rfl⟩

theorem State.Inv.finishEncode (hr : s.EncoderReady) : s.finishEncode.Inv := by
  have hfits : 8 + s.packedBytes ≤ 8 + ceilDiv s.cfg.maxPixels 8 := Nat.add_le_add_left hr.packedBytes_le 8
  exact { h with
    framelenFits := hfits.trans_lt (lt_two_pow_lenw s.cfg).2
    frameFits := hfits
    busyAwaited := nofun
    scanLegal := (scanLegal_of_idle rfl).mpr ⟨nofun, rfl⟩ }

end Operations

-- The items of the passes

theorem State.Inv.applyTap {s : State} (h : s.Inv) (hb : s.status = .busy) (hn : s.tmp.n ≤ 4 * s.cfg.maxPixels)
    {j d : Nat} (h4 : (j + d) % 4 = 0) : (applyTap j s d).Inv := by
  have ht := h.setTmp hb { s.tmp with t := j + d }
  unfold Machine.applyTap
  dsimp only
  split
  · next hlt => exact ht.putWork _ (hlt.trans_le hn) h4
  · exact ht

theorem State.Inv.applyTaps {s : State} (h : s.Inv) (hb : s.status = .busy) (hn : s.tmp.n ≤ 4 * s.cfg.maxPixels)
    {j : Nat} {ds : List Nat} (h4 : ∀ d ∈ ds, (j + d) % 4 = 0) : (ds.foldl (Machine.applyTap j) s).Inv := by
  induction ds generalizing s with
  | nil => exact h
  | cons d ds ih =>
    obtain ⟨hd, hds⟩ := List.forall_mem_cons.mp h4
    have hinv := h.applyTap hb hn hd
    obtain ⟨w, hw⟩ := applyTap_only j d s
    rw [hw] at hinv
    rw [List.foldl_cons, hw]
    exact ih hinv hb hn hds

theorem tapOffsets_aligned (width : Nat) : ∀ d ∈ tapOffsets width, d % 4 = 0 := by
  intro d hd
  simp only [tapOffsets, List.mem_cons, List.not_mem_nil, or_false] at hd
  omega

theorem State.Inv.diffusePixel {s : State} (h : s.Inv) (hb : s.status = .busy) (hr : s.ReducerReady) {p : Nat}
    (hp : p < s.pixels) : (diffusePixel p s).Inv := by
  have hred := (h.setTmp hb (quantiseTemps p s)).putRed (quantiseTemps p s).newPixel (hp.trans_le hr.pixels_le)
  refine hred.applyTaps hb (Nat.mul_le_mul_left 4 hr.pixels_le) fun d hd => ?_
  have := tapOffsets_aligned _ d hd
  omega

-- The small steps (R26, R238)

theorem IsPass.tick_of_scan {body : Nat → State → State} {counter : Nat → Scan} {size : State → Nat}
    {last : State → State} (hp : IsPass body counter size last) {s : State} {p : Nat} (hc : s.scan = counter p) :
    tick s = if p + 1 < size s then (body p s).setScan (counter (p + 1)) else last (body p s) := by
  rw [← hp.tick_eq, ← hc]
  rfl

section Items

variable {s : State} (h : s.Inv)
include h

theorem State.Inv.tick_threshold {p : Nat} (hc : s.scan = .threshold p) : (tick s).Inv := by
  obtain ⟨hb, hr, hp⟩ := (scanLegal_of_threshold hc).mp h.scanLegal
  have hbody : (thresholdPixel p s).Inv := h.putRed _ (hp.trans_le hr.pixels_le)
  rw [threshold_isPass.tick_of_scan hc]
  split
  · next hlt => exact hbody.setScan ((scanLegal_of_threshold rfl).mpr ⟨hb, hr, hlt⟩)
  · exact hbody.finishReduce hr

/-- A pixel of pass 1 writes its slot, so that at the end of the pass every slot pass 2 reads is written (R28, R133). -/
theorem State.Inv.tick_luminance {p : Nat} (hc : s.scan = .luminance p) : (tick s).Inv := by
  obtain ⟨hb, hr, hp, hw⟩ := (scanLegal_of_luminance hc).mp h.scanLegal
  have hpixels := hr.pixels_le
  have hbody : (lumPixel p s).Inv := h.putWork _ (by omega) (Nat.mul_mod_right 4 p)
  have hwritten : ∀ q < p + 1, (Memory.get? (lumPixel p s).work (4 * q)).isSome = true := by
    intro q hq
    rcases Nat.lt_succ_iff_lt_or_eq.mp hq with hlt | rfl
    · exact Memory.isSome_get?_put _ _ (hw q hlt)
    · rw [lumPixel_eq, State.putWork_work, Memory.get?_put_self, Option.isSome_some]
  rw [luminance_isPass.tick_of_scan hc]
  split
  · next hlt => exact hbody.setScan ((scanLegal_of_luminance rfl).mpr ⟨hb, hr, hlt, hwritten⟩)
  · next hge =>
    refine hbody.setScan ((scanLegal_of_diffusion rfl).mpr ⟨hb, hr, p.zero_le.trans_lt hp, fun q hq => ?_⟩)
    have hq : q < s.pixels := hq
    exact hwritten q (by omega)

theorem State.Inv.tick_diffusion {p : Nat} (hc : s.scan = .diffusion p) : (tick s).Inv := by
  obtain ⟨hb, hr, hp, -⟩ := (scanLegal_of_diffusion hc).mp h.scanLegal
  have hbody := h.diffusePixel hb hr hp
  have hscan : (Machine.diffusePixel p s).scan = .diffusion p := by
    obtain ⟨w, m, hd⟩ := diffusePixel_only p s
    rw [hd, hc]
  rw [diffusion_isPass.tick_of_scan hc, ← diffusion_isPass.size_eq p s]
  generalize Machine.diffusePixel p s = t at hbody hscan
  obtain ⟨hb', hr', -, hw⟩ := (scanLegal_of_diffusion hscan).mp hbody.scanLegal
  split
  · next hlt => exact hbody.setScan ((scanLegal_of_diffusion rfl).mpr ⟨hb', hr', hlt, hw⟩)
  · exact hbody.finishReduce hr'

theorem State.Inv.tick_header {k : Nat} (hc : s.scan = .header k) : (tick s).Inv := by
  obtain ⟨hb, hr, hk⟩ := (scanLegal_of_header hc).mp h.scanLegal
  have hbody : (headerStep k s).Inv := (h.setTmp hb _).putFrame _ (Nat.lt_add_right _ hk)
  rw [header_isPass.tick_of_scan hc]
  split
  · next hlt => exact hbody.setScan ((scanLegal_of_header rfl).mpr ⟨hb, hr, hlt⟩)
  · exact hbody.setScan ((scanLegal_of_bitmap rfl).mpr ⟨hb, hr, packedBytes_pos (pixels_pos_of_ready (i := .enc) hr)⟩)

theorem State.Inv.tick_bitmap {k : Nat} (hc : s.scan = .bitmap k) : (tick s).Inv := by
  obtain ⟨hb, hr, hk⟩ := (scanLegal_of_bitmap hc).mp h.scanLegal
  have hbody : (bitmapStep k s).Inv := h.putFrame _ (Nat.add_lt_add_left (hk.trans_le hr.packedBytes_le) 8)
  rw [bitmap_isPass.tick_of_scan hc]
  split
  · next hlt => exact hbody.setScan ((scanLegal_of_bitmap rfl).mpr ⟨hb, hr, hlt⟩)
  · exact hbody.finishEncode hr

theorem State.Inv.tick : (tick s).Inv := by
  cases hc : s.scan with
  | idle => rwa [Machine.tick, hc]
  | threshold p => exact h.tick_threshold hc
  | luminance p => exact h.tick_luminance hc
  | diffusion p => exact h.tick_diffusion hc
  | header k => exact h.tick_header hc
  | bitmap k => exact h.tick_bitmap hc

end Items

theorem Runs.inv {n : Nat} {s t : State} (h : Runs n s t) (hs : s.Inv) : t.Inv := by
  induction h with
  | zero s => exact hs
  | succ _ _ ih => exact ih hs.tick

-- The launches (R23, R202)

/-- The counter of a launched command stands at the first item of a pass that is not empty. -/
theorem scanLegal_launched {i : Instr} {s : State} (hr : s.Ready i) : (s.begin.setScan (firstScan i)).ScanLegal := by
  have hp := pixels_pos_of_ready hr
  cases i with
  | redT => exact (scanLegal_of_threshold rfl).mpr ⟨rfl, hr, hp⟩
  | redD => exact (scanLegal_of_luminance rfl).mpr ⟨rfl, hr, hp, nofun⟩
  | enc => exact (scanLegal_of_header rfl).mpr ⟨rfl, hr, by decide⟩

/-- A launch whose checks fail raises a fault, at both levels (R202, R204). -/
theorem launch_of_not_ready {i : Instr} {s : State} (h : ¬ s.Ready i) :
    ∃ c, exec i s = .next (s.setStatus (.fault c)) ∧ s.startCommand i = s.setStatus (.fault c) := by
  obtain ⟨c, hc⟩ := Option.ne_none_iff_exists'.mp (mt (launchCheck_eq_none_iff s i).mp h)
  exact ⟨c, by rw [exec_eq_launch, hc, launch_fault], by rw [State.startCommand, hc]; rfl⟩

section Launch

variable {s : State} (h : s.Inv) (hb : s.status ≠ .busy) (ha : s.awaits = true)
include h hb ha

theorem State.Inv.startCommand (i : Instr) : (s.startCommand i).Inv := by
  by_cases hr : s.Ready i
  · rw [startCommand_of_ready hr]
    exact { h with
      busyAwaited := fun _ => ha
      scanLegal := scanLegal_launched hr }
  · obtain ⟨c, -, hc⟩ := launch_of_not_ready hr
    rw [hc]
    exact h.setStatus_fault hb c

/-- A command taken as one step is its launch and its small steps, each of which keeps the invariant (R10). -/
theorem State.Inv.exec {i : Instr} {t : State} (ht : exec i s = .next t) : t.Inv := by
  by_cases hr : s.Ready i
  · rw [exec_of_ready hr] at ht
    rw [← Host.Outcome.next.inj ht]
    exact (startCommand_runs hr).inv (h.startCommand hb ha i)
  · obtain ⟨c, hc, -⟩ := launch_of_not_ready hr
    rw [hc] at ht
    rw [← Host.Outcome.next.inj ht]
    exact h.setStatus_fault hb c

end Launch

-- The host's writes and the reset (R32, R34, R230)

/-- A register is written at its own width, which for the lengths is `LENW` (R22). -/
theorem State.Inv.writeReg {s : State} (h : s.Inv) (hb : s.status ≠ .busy) (r v : Nat) : (s.writeReg r v).Inv := by
  have hfits : v % 2 ^ lenw s.cfg < 2 ^ lenw s.cfg := Nat.mod_lt v (Nat.two_pow_pos _)
  unfold State.writeReg
  split
  · exact { h with scanLegal := h.scanLegal_at_rest hb rfl rfl hb }
  · exact { h with scanLegal := h.scanLegal_at_rest hb rfl rfl hb }
  · exact { h with scanLegal := h.scanLegal_at_rest hb rfl rfl hb }
  · exact { h with scanLegal := h.scanLegal_at_rest hb rfl rfl hb }
  · exact { h with pixlenFits := hfits, scanLegal := h.scanLegal_at_rest hb rfl rfl hb }
  · exact { h with redlenFits := hfits, scanLegal := h.scanLegal_at_rest hb rfl rfl hb }
  · exact h

theorem State.Inv.hostStore {s : State} (h : s.Inv) {b : Buffer} {k : Nat} (v : Byte) (hk : k < bufferSize s.cfg b) :
    (s.hostStore b k v).Inv := by
  cases b with
  | pix => exact h.putPix v hk
  | red => exact h.putRed v hk
  | frame => exact h

theorem resetOf_inv (c : Config) (serial epoch : Nat) : (State.resetOf c serial epoch).Inv where
  pixCanonical := rfl
  workCanonical := rfl
  redCanonical := rfl
  frameCanonical := rfl
  pixWithin := rfl
  workWithin := rfl
  redWithin := rfl
  frameWithin := rfl
  workAligned := nofun
  pixlenFits := Nat.two_pow_pos _
  redlenFits := Nat.two_pow_pos _
  framelenFits := Nat.two_pow_pos _
  frameFits := Nat.zero_le _
  busyAwaited := nofun
  scanLegal := (scanLegal_of_idle rfl).mpr ⟨nofun, rfl⟩

theorem restart_inv (s : State) : s.restart.Inv :=
  (resetOf_inv s.cfg s.serial (s.epoch + 1)).onHost s.host s.heard nofun

/-- Settles O52: nothing is listed, the registers are 0 and the counter is at rest. -/
theorem invAtReset : Obligations.InvAtReset := resetOf_inv Config.chip Config.thisSerial 0

theorem StepEffect.inv {s t : State} (h : StepEffect s t) (hs : s.Inv) : t.Inv := by
  cases h with
  | hostOnly l x a ha ht => rw [ht]; exact hs.onHost l x fun hb => (ha hb).trans (hs.busyAwaited hb)
  | smallStep l x a hb ha ht => rw [ht]; exact (hs.onHost l x fun hb => ha.trans (hs.busyAwaited hb)).tick
  | launch i v rest hh hf hd ht => exact (hs.onHost rest s.heard fun _ => rfl).exec hf.1 rfl ht
  | start i v rest hh hf hd ht => rw [ht]; exact (hs.onHost rest s.heard fun _ => rfl).startCommand hf.1 rfl i
  | reserved rest hf ht => rw [ht]; exact (hs.onHost rest s.heard fun _ => rfl).setStatus_fault hf.1 .cvCmd
  | writeReg r v rest hh hb hw hr ht => rw [ht]; exact (hs.onHost rest s.heard hs.busyAwaited).writeReg hb r v
  | store b k v rest hh hf hk ht => rw [ht]; exact (hs.onHost rest s.heard hs.busyAwaited).hostStore v hk
  | reset rest hh ht => rw [ht]; exact restart_inv _

/-- Settles O53: each kind of effect a step can have keeps the invariant; a command taken as one step does so as the
composition of its small steps. -/
theorem stepKeepsInv : Obligations.StepKeepsInv := fun _ _ hs h => (step_effect h).inv hs

end Sys2Proof.Machine
end

section
/-! PROOFS. What a launch comes to and what it depends on (spec/10_state.md R24, R25, R28, R33), and what changes the
operands, the pixels, the reduced array and the frame (R21, R22, R27, R29, R30). -/

namespace Sys2Proof.Machine

-- Launches (R24, R202)

theorem runCommand_scan (i : Instr) (s : State) : (runCommand i s).scan = .idle := by
  cases i with
  | redT => exact runRedT_scan s
  | redD => exact runRedD_scan s
  | enc => exact runEnc_scan s

theorem runCommand_tmp (i : Instr) (s : State) : (runCommand i s).tmp = Temps.dead := by
  cases i with
  | redT => exact runRedT_tmp s
  | redD => exact runRedD_tmp s
  | enc => exact runEnc_tmp s

/-- Settles O10: a launch with its operands ready runs to `DONE`, any other raises a fault. -/
theorem everyLaunchEnds : Obligations.EveryLaunchEnds := by
  intro i s
  by_cases hr : s.Ready i
  · exact ⟨_, exec_of_ready hr, fun _ => ⟨runCommand_status i _, runCommand_scan i _, runCommand_tmp i _⟩,
      fun hn => absurd hr hn⟩
  · obtain ⟨c, hc, -⟩ := launch_of_not_ready hr
    exact ⟨_, hc, fun h => absurd h hr, fun _ => ⟨c, rfl⟩⟩

/-- Settles O14: neither the checks nor the state a command runs in hold what `STATUS` was at the launch. -/
theorem commandsIgnoreStatus : Obligations.CommandsIgnoreStatus := by
  intro i s st
  have hbegin : (s.setStatus st).begin = s.begin := rfl
  have hcheck : (s.setStatus st).launchCheck i = s.launchCheck i := by cases i <;> rfl
  simp only [exec_eq_launch, State.launch, hbegin, hcheck]

-- What the reducer commands depend on (R33, R114, R142)

theorem runRedT_redAt (s : State) (p : Nat) : (runRedT s).redAt p =
    if p < s.pixels then thr1 (s.redSample p) (s.greenSample p) (s.blueSample p) s.contrast else s.redAt p := by
  rw [runRedT, State.finishReduce, State.complete_redAt, State.setRedlen_redAt, thresholdLoop_redAt]

theorem begin_keeps (s : State) : CoreKeeps s s.begin :=
  ⟨rfl, rfl, rfl, rfl, rfl, rfl, rfl, rfl, rfl, rfl, rfl, rfl⟩

theorem pass2_keeps (s : State) (p : Nat) : CoreKeeps s (s.pass2 p) := by
  obtain ⟨w, r, m, h⟩ := pass2_only s p
  rw [h]
  exact ⟨rfl, rfl, rfl, rfl, rfl, rfl, rfl, rfl, rfl, rfl, rfl, rfl⟩

section ReducerInput

variable {s s' : State} (h : SameReducerInput s s')
include h

theorem SameReducerInput.pixels : s'.pixels = s.pixels := by
  obtain ⟨-, hwidth, hheight, -⟩ := h
  rw [State.pixels, State.pixels, hwidth, hheight]

theorem SameReducerInput.reducerCheck : s'.reducerCheck = s.reducerCheck := by
  have hpixels := h.pixels
  obtain ⟨hcfg, hwidth, hheight, -, hpixlen, -⟩ := h
  simp only [State.reducerCheck, hpixels, hcfg, hwidth, hheight, hpixlen]

/-- What the core never changes holds all the reducer's input. -/
theorem SameReducerInput.of_keeps {t t' : State} (hk : CoreKeeps s t) (hk' : CoreKeeps s' t') : SameReducerInput t t' := by
  obtain ⟨hcfg, hwidth, hheight, hcontrast, hpixlen, hpix⟩ := h
  refine ⟨?_, ?_, ?_, ?_, ?_, fun k hlt h3 => ?_⟩
  · rw [hk.cfg, hk'.cfg, hcfg]
  · rw [hk.width, hk'.width, hwidth]
  · rw [hk.height, hk'.height, hheight]
  · rw [hk.contrast, hk'.contrast, hcontrast]
  · rw [hk.pixlen, hk'.pixlen, hpixlen]
  · rw [hk.pixAt, hk'.pixAt, hpix k (hk.pixels ▸ hlt) h3]

/-- The three colour samples of a pixel, alpha left out (R114). -/
theorem SameReducerInput.samples {p : Nat} (hp : p < s.pixels) :
    s'.redSample p = s.redSample p ∧ s'.greenSample p = s.greenSample p ∧ s'.blueSample p = s.blueSample p := by
  obtain ⟨-, -, -, -, -, hpix⟩ := h
  exact ⟨hpix _ (by omega) (by omega), hpix _ (by omega) (by omega), hpix _ (by omega) (by omega)⟩

/-- A reducer launch depends on its input alone if the entries its run leaves below the pixel count do. -/
theorem SameReducerInput.launch_pure {t t' : State} {run : State → State} (ht : s.launch s.reducerCheck run = .next t)
    (ht' : s'.launch s'.reducerCheck run = .next t') (hstatus : ∀ u, (run u).status = .done)
    (hredlen : ∀ u, (run u).redlen = u.pixels)
    (hred : ∀ p < s.pixels, (run s'.begin).redAt p = (run s.begin).redAt p) :
    t'.status = t.status ∧ (t.status = .done → t'.redlen = t.redlen ∧ ∀ p < t.redlen, t'.redAt p = t.redAt p) := by
  rw [h.reducerCheck] at ht'
  cases hc : s.reducerCheck with
  | some c =>
    rw [hc, launch_fault] at ht ht'
    rw [← Host.Outcome.next.inj ht, ← Host.Outcome.next.inj ht']
    exact ⟨rfl, nofun⟩
  | none =>
    rw [hc, launch_run] at ht ht'
    rw [← Host.Outcome.next.inj ht, ← Host.Outcome.next.inj ht', hstatus, hstatus, hredlen, hredlen]
    exact ⟨rfl, fun _ => ⟨h.pixels, hred⟩⟩

/-- As far as pass 2 has come, the slots of the image and the entries written are the same on both sides (R28, R142). -/
theorem SameReducerInput.pass2_same {p : Nat} (hp : p ≤ s.pixels) :
    (∀ k < 4 * s.pixels, k % 4 = 0 → (s'.pass2 p).workAt k = (s.pass2 p).workAt k) ∧
      ∀ q < p, (s'.pass2 p).redAt q = (s.pass2 p).redAt q := by
  induction p with
  | zero =>
    refine ⟨fun k hk h4 => ?_, nofun⟩
    rw [pass2_zero, pass2_zero, luminancePass_workAt, luminancePass_workAt, State.begin_pixels, State.begin_pixels,
      h.pixels, if_pos ⟨h4, hk⟩, if_pos ⟨h4, hk⟩]
    obtain ⟨hr, hg, hb⟩ := (h.of_keeps (begin_keeps s) (begin_keeps s')).samples (p := k / 4) (show k / 4 < s.pixels by omega)
    rw [hr, hg, hb]
  | succ p ih =>
    obtain ⟨hwork, hentries⟩ := ih (by omega)
    obtain ⟨-, hwidth, -, hcontrast, -⟩ := h.of_keeps (pass2_keeps s p) (pass2_keeps s' p)
    have hv := hwork (4 * p) (by omega) (by omega)
    have hpixels := (pass2_keeps s p).pixels
    have hpixels' := (pass2_keeps s' p).pixels.trans h.pixels
    rw [pass2_succ, pass2_succ]
    constructor
    · intro k hk h4
      rw [diffusePixel_workAt, diffusePixel_workAt, hwork k hk h4, hv, hwidth, hcontrast, hpixels, hpixels']
    · intro q hq
      rw [diffusePixel_redAt, diffusePixel_redAt, hv, hcontrast]
      split
      · rfl
      · exact hentries q (by omega)

end ReducerInput

/-- Settles O18: each entry is decided by its own pixel's colour samples and `CONTRAST`. -/
theorem redTPure : Obligations.RedTPure := by
  intro s s' t t' h ht ht'
  refine h.launch_pure ht ht' runRedT_status runRedT_redlen fun p hp => ?_
  have hb : SameReducerInput s.begin s'.begin := h.of_keeps (begin_keeps s) (begin_keeps s')
  obtain ⟨hr, hg, hbl⟩ := hb.samples hp
  have hpixels := hb.pixels
  obtain ⟨-, -, -, hcontrast, -⟩ := hb
  rw [runRedT_redAt, runRedT_redAt, hpixels, State.begin_pixels, if_pos hp, if_pos hp, hr, hg, hbl, hcontrast]

/-- Settles O19: pass 1 writes every slot that pass 2 reads, so the two runs of pass 2 go alike. -/
theorem redDPure : Obligations.RedDPure := by
  intro s s' t t' h ht ht'
  refine h.launch_pure ht ht' runRedD_status runRedD_redlen fun p hp => ?_
  rw [(runRedD_from_pass2 s').1, (runRedD_from_pass2 s).1, h.pixels]
  exact (h.pass2_same le_rfl).2 p hp

-- What the core never changes (R21, R22, R27)

/-- Beside its own host, the block keeps what the core can never change, unless the host writes a register or an element, or
resets the block. -/
theorem StepEffect.keeps_or_hostWrite {s t : State} (h : StepEffect s t) :
    (∃ l x a, CoreKeeps (s.onHost l x a) t) ∨
    (∃ r v rest, s.host = .write r v :: rest ∧ r ≠ 0 ∧ t = (s.setHost rest).writeReg r v) ∨
    (∃ b k v rest, s.host = .store b k v :: rest ∧ t = (s.setHost rest).hostStore b k v) ∨
    ∃ rest, s.host = .reset :: rest := by
  cases h with
  | hostOnly l x a ha ht => exact .inl ⟨l, x, a, ht ▸ CoreKeeps.rfl' _⟩
  | smallStep l x a hb ha ht => exact .inl ⟨l, x, a, ht ▸ tick_keeps _⟩
  | launch i v rest hh hf hd ht => exact .inl ⟨rest, s.heard, true, exec_keeps ht⟩
  | start i v rest hh hf hd ht => exact .inl ⟨rest, s.heard, true, ht ▸ startCommand_keeps _ i⟩
  | reserved rest hf ht =>
    exact .inl ⟨rest, s.heard, true, ht ▸ ⟨rfl, rfl, rfl, rfl, rfl, rfl, rfl, rfl, rfl, rfl, rfl, rfl⟩⟩
  | writeReg r v rest hh hb hw hr ht => exact .inr (.inl ⟨r, v, rest, hh, hr, ht⟩)
  | store b k v rest hh hf hk ht => exact .inr (.inr (.inl ⟨b, k, v, rest, hh, ht⟩))
  | reset rest hh ht => exact .inr (.inr (.inr ⟨rest, hh⟩))

theorem CoreKeeps.sameOperands {s t : State} (h : CoreKeeps s t) : SameOperands s t :=
  ⟨h.width, h.height, h.contrast, h.scale⟩

/-- Settles O55: of the host's writes only those of registers other than `CMD` reach the operands, and the core none. -/
theorem operandsHostOwned : Obligations.OperandsHostOwned := by
  intro s t h hwrite hreset
  rcases (step_effect h).keeps_or_hostWrite with
    ⟨l, x, a, hk⟩ | ⟨r, v, rest, hh, hr, -⟩ | ⟨b, k, v, rest, -, rfl⟩ | ⟨rest, hh⟩
  · exact ⟨hk.sameOperands, hk.pixlen⟩
  · exact absurd (hwrite r v rest hh) hr
  · cases b <;> exact ⟨⟨rfl, rfl, rfl, rfl⟩, rfl⟩
  · exact absurd hh (hreset rest)

theorem State.writeReg_pixAt (s : State) (r v k : Nat) : (s.writeReg r v).pixAt k = s.pixAt k := by
  unfold State.writeReg
  split <;> rfl

/-- Settles O56: the core leaves `PIX` alone, and of the host's writes only those of its elements reach it. -/
theorem pixelsHostOwned : Obligations.PixelsHostOwned := by
  intro s t h hstore hreset j
  rcases (step_effect h).keeps_or_hostWrite with
    ⟨l, x, a, hk⟩ | ⟨r, v, rest, -, -, rfl⟩ | ⟨b, k, v, rest, hh, rfl⟩ | ⟨rest, hh⟩
  · exact hk.pixAt j
  · exact State.writeReg_pixAt _ r v j
  · cases b with
    | pix => exact absurd hh (hstore k v rest)
    | red => rfl
    | frame => rfl
  · exact absurd hh (hreset rest)

-- What the results show (R29, R30)

/-- What there is to see of the frame (R30): `FRAMELEN` and every byte. -/
def State.frameView (s : State) : Nat × (Nat → Byte) := (s.framelen, s.frameAt)

/-- What there is to see of the reduced array (R29): `REDLEN` and every entry. -/
def State.redView (s : State) : Nat × (Nat → Byte) := (s.redlen, s.redAt)

theorem frameView_eq_iff (s t : State) :
    t.frameView = s.frameView ↔ t.framelen = s.framelen ∧ ∀ k, t.frameAt k = s.frameAt k := by
  rw [State.frameView, State.frameView, Prod.mk.injEq, funext_iff]

theorem redView_eq_iff (s t : State) :
    t.redView = s.redView ↔ t.redlen = s.redlen ∧ ∀ p, t.redAt p = s.redAt p := by
  rw [State.redView, State.redView, Prod.mk.injEq, funext_iff]

/-- What the items of a pass and its end keep, each of its small steps keeps. -/
theorem IsPass.tick_view {body : Nat → State → State} {counter : Nat → Scan} {size : State → Nat} {last : State → State}
    (hp : IsPass body counter size last) {β : Type} {f : State → β} (hbody : ∀ p s, f (body p s) = f s)
    (hscan : ∀ s c, f (s.setScan c) = f s) (hlast : ∀ s, f (last s) = f s) {s : State} {p : Nat}
    (hc : s.scan = counter p) : f (tick s) = f s := by
  rw [hp.tick_of_scan hc]
  split
  · rw [hscan, hbody]
  · rw [hlast, hbody]

theorem diffusePixel_frameView (p : Nat) (s : State) : (diffusePixel p s).frameView = s.frameView := by
  obtain ⟨w, m, h⟩ := diffusePixel_only p s
  rw [h]
  rfl

theorem tick_frameView {s : State} (hheader : ∀ k, s.scan ≠ .header k) (hbitmap : ∀ k, s.scan ≠ .bitmap k) :
    (tick s).frameView = s.frameView := by
  cases hc : s.scan with
  | idle => rw [tick, hc]
  | threshold p => exact threshold_isPass.tick_view (fun _ _ => rfl) (fun _ _ => rfl) (fun _ => rfl) hc
  | luminance p => exact luminance_isPass.tick_view (fun _ _ => rfl) (fun _ _ => rfl) (fun _ => rfl) hc
  | diffusion p => exact diffusion_isPass.tick_view diffusePixel_frameView (fun _ _ => rfl) (fun _ => rfl) hc
  | header k => exact absurd hc (hheader k)
  | bitmap k => exact absurd hc (hbitmap k)

theorem tick_redView {s : State} (hthreshold : ∀ p, s.scan ≠ .threshold p) (hdiffusion : ∀ p, s.scan ≠ .diffusion p) :
    (tick s).redView = s.redView := by
  cases hc : s.scan with
  | idle => rw [tick, hc]
  | threshold p => exact absurd hc (hthreshold p)
  | luminance p => exact luminance_isPass.tick_view (fun _ _ => rfl) (fun _ _ => rfl) (fun _ => rfl) hc
  | diffusion p => exact absurd hc (hdiffusion p)
  | header k => exact header_isPass.tick_view (fun _ _ => rfl) (fun _ _ => rfl) (fun _ => rfl) hc
  | bitmap k => exact bitmap_isPass.tick_view (fun _ _ => rfl) (fun _ _ => rfl) (fun _ => rfl) hc

/-- What a change of `STATUS` and the run of a command keep, the command keeps. -/
theorem exec_view {β : Type} {f : State → β} {i : Instr} {s t : State} (hstatus : ∀ u st, f (State.setStatus u st) = f u)
    (hrun : ∀ u, f (runCommand i u) = f u) (h : exec i s = .next t) : f t = f s := by
  rw [exec_eq_launch] at h
  rcases launch_cases h with ⟨c, -, rfl⟩ | ⟨-, rfl⟩
  · exact hstatus s _
  · exact (hrun s.begin).trans (hstatus s .busy)

theorem exec_frameView {i : Instr} {s t : State} (hi : i ≠ .enc) (h : exec i s = .next t) :
    t.frameView = s.frameView := by
  refine exec_view (fun _ _ => rfl) (fun u => (frameView_eq_iff _ _).mpr ?_) h
  cases i with
  | redT => exact ⟨runRedT_framelen u, runRedT_frameAt u⟩
  | redD => exact ⟨runRedD_framelen u, runRedD_frameAt u⟩
  | enc => exact absurd rfl hi

theorem exec_enc_redView {s t : State} (h : exec .enc s = .next t) : t.redView = s.redView :=
  exec_view (i := .enc) (fun _ _ => rfl) (fun u => (redView_eq_iff _ _).mpr ⟨runEnc_redlen u, runEnc_redAt u⟩) h

theorem startCommand_view {β : Type} {f : State → β} (hstatus : ∀ u st, f (State.setStatus u st) = f u)
    (hscan : ∀ u c, f (State.setScan u c) = f u) (s : State) (i : Instr) : f (s.startCommand i) = f s := by
  unfold State.startCommand
  split
  · exact (hstatus _ _).trans (hstatus s .busy)
  · exact (hscan _ _).trans (hstatus s .busy)

/-- A byte decodes to no command but the one it encodes (R81). -/
theorem decodeByte_eq_some {b : Byte} {i : Instr} (h : decodeByte b = some i) : b = i.fields.byte := by
  rw [decodeByte_eq_some_iff] at h
  simp only [decode] at h
  split_ifs at h with h0 h1 h2 h3
  · cases h; exact h0
  · cases h; exact h1
  · cases h; exact h2

theorem decodeByte_ofNat_eq_some {v : Nat} {i : Instr} (h : decodeByte (BitVec.ofNat 8 v) = some i) :
    v % 256 = i.fields.byte.toNat := by
  rw [← decodeByte_eq_some h, BitVec.toNat_ofNat]

theorem State.writeReg_frameView (s : State) (r v : Nat) : (s.writeReg r v).frameView = s.frameView := by
  unfold State.writeReg
  split <;> rfl

theorem State.writeReg_redView (s : State) {r : Nat} (hr : r ≠ 7) (v : Nat) : (s.writeReg r v).redView = s.redView := by
  unfold State.writeReg
  split
  case h_6 => exact absurd rfl hr
  all_goals rfl

/-- Settles O57: of all that a step can do, only an `ENC`, its byte steps and the reset reach the frame. -/
theorem frameImmutable : Obligations.FrameImmutable := by
  intro s t h hlaunch hheader hbitmap hreset
  rw [← frameView_eq_iff]
  cases step_effect h with
  | hostOnly l x a ha ht => rw [ht]; rfl
  | smallStep l x a hb ha ht => rw [ht]; exact tick_frameView hheader hbitmap
  | launch i v rest hh hf hd ht =>
    show t.frameView = (s.onHost rest s.heard true).frameView
    refine exec_frameView (fun hi => hlaunch v rest hh ?_) ht
    rw [decodeByte_ofNat_eq_some hd, hi]
    rfl
  | start i v rest hh hf hd ht => rw [ht]; exact startCommand_view (fun _ _ => rfl) (fun _ _ => rfl) _ i
  | reserved rest hf ht => rw [ht]; rfl
  | writeReg r v rest hh hb hw hr ht => rw [ht]; exact State.writeReg_frameView _ r v
  | store b k v rest hh hf hk ht => rw [ht]; cases b <;> rfl
  | reset rest hh ht => exact absurd hh (hreset rest)

/-- Settles O58: of all that a step can do, only a reducer command, its pixels, a write of `REDLEN` or of an entry, and the
reset reach the reduced array. -/
theorem reducedArrayKept : Obligations.ReducedArrayKept := by
  intro s t h hlaunch hredlen hstore hthreshold hdiffusion hreset
  rw [← redView_eq_iff]
  cases step_effect h with
  | hostOnly l x a ha ht => rw [ht]; rfl
  | smallStep l x a hb ha ht => rw [ht]; exact tick_redView hthreshold hdiffusion
  | launch i v rest hh hf hd ht =>
    show t.redView = (s.onHost rest s.heard true).redView
    have hv := hlaunch v rest hh
    rw [decodeByte_ofNat_eq_some hd] at hv
    cases i with
    | redT => exact absurd hv (by decide)
    | redD => exact absurd hv (by decide)
    | enc => exact exec_enc_redView ht
  | start i v rest hh hf hd ht => rw [ht]; exact startCommand_view (fun _ _ => rfl) (fun _ _ => rfl) _ i
  | reserved rest hf ht => rw [ht]; rfl
  | writeReg r v rest hh hb hw hr ht => rw [ht]; exact State.writeReg_redView _ (fun h7 => hredlen v rest (h7 ▸ hh)) v
  | store b k v rest hh hf hk ht =>
    rw [ht]
    cases b with
    | pix => rfl
    | red => exact absurd hh (hstore k v rest)
    | frame => rfl
  | reset rest hh ht => exact absurd hh (hreset rest)

end Sys2Proof.Machine
end

section
/-! PROOFS. The host's side of spec/10_state.md: launches (R23), the access rights and what each access does (R24, R27, R29,
R30, R32), and the reset (R34). -/

namespace Sys2Proof.Machine

-- Launches by the host (R23, R62, R80)

theorem step_of_command {i : Instr} {s : State} {v : Nat} {rest : List HostOp} (hf : s.HostFree)
    (hh : s.host = .write 0 v :: rest) (hd : decodeByte (BitVec.ofNat 8 v) = some i) :
    step s = exec i ((s.setHost rest).setAwaits true) := by
  rw [step_of_host hh (hostRefusal_of_free hf _), HostOp.move, if_pos rfl, State.command, hd, Move.outcome_run]

/-- Settles O4: the step hands a decoded byte to `exec`, or to the launch that small steps follow, which starts the command's
first pass if the checks pass and otherwise faults as `exec` does. -/
theorem stepRunsDecodedCommand : Obligations.StepRunsDecodedCommand := by
  intro s rest i hf
  refine ⟨fun v hh hd => step_of_command hf hh ((decodeByte_eq_some_iff _ i).mpr hd),
    fun v hh hd => ⟨fun hr => ?_, fun hr => ?_⟩⟩
  · rw [step_of_start hf hh hd, startCommand_of_ready (hr.onHost rest s.heard true)]
    cases i <;> rfl
  · have hn : ¬ (s.onHost rest s.heard true).Ready i := fun h => hr (h.onHost s.host s.heard s.awaits)
    obtain ⟨c, hexec, hstart⟩ := launch_of_not_ready hn
    rw [step_of_start hf hh hd, hstart, ← hexec]
    rfl

/-- A table word of 8 bits is its one byte. -/
theorem decodeTableWord_byte (w : Nat) : decodeTableWord 8 w = decodeByte (BitVec.ofNat 8 (w % 2 ^ 8)) := rfl

/-- Settles O5: the placed word is the host's next write to `CMD`, and taking it off the list gives back the state it was placed
in. -/
theorem fetchWordRuns : Obligations.FetchWordRuns := by
  intro s w i hb hd
  rw [decodeTableWord_byte] at hd
  have hplaced : s.withFetchWord 8 w =
      (s.setAwaits false).setHost (.write 0 (BitVec.ofNat 8 (w % 2 ^ 8)).toNat :: s.host) := by
    rw [State.withFetchWord, State.withCommand, if_neg hb]
  rw [hplaced]
  exact step_of_command (rest := s.host) ⟨hb, rfl⟩ rfl (by rwa [BitVec.ofNat_toNat, BitVec.setWidth_eq])

-- Accesses that are refused (R32, R212, R234)

theorem step_refused_of_busy {s : State} {op : HostOp} {rest : List HostOp} (hh : s.host = op :: rest) (hb : s.status = .busy)
    (ha : op.allowedWhileBusy = false) : step s = .refused (.hostWhileBusy op) := by
  refine step_of_refusal hh ?_
  rw [State.hostRefusal, ha, if_neg Bool.false_ne_true, if_pos hb]

theorem step_refused_of_awaits {s : State} {op : HostOp} {rest : List HostOp} (hh : s.host = op :: rest)
    (hb : s.status ≠ .busy) (hw : s.awaits = true) (ha : op.allowedWhileBusy = false)
    (hp : op.allowedBeforePoll = false) : step s = .refused (.hostBeforePoll op) := by
  refine step_of_refusal hh ?_
  rw [State.hostRefusal, ha, hp, hw, if_neg Bool.false_ne_true, if_neg hb]
  rfl

/-- Settles O41: none of these accesses is allowed in its window. -/
theorem hostRefusedWhileBusy : Obligations.HostRefusedWhileBusy := by
  intro s op rest hh
  constructor
  · intro hb hop
    refine step_refused_of_busy hh hb ?_
    rcases hop with ⟨r, v, rfl⟩ | ⟨b, k, v, rfl⟩ | ⟨b, k, rfl⟩ | ⟨v, rfl⟩ | ⟨r, rfl, hr⟩
    · rfl
    · rfl
    · rfl
    · rfl
    · exact beq_false_of_ne hr
  · intro hb hw hop
    obtain ⟨ha, hp⟩ : op.allowedWhileBusy = false ∧ op.allowedBeforePoll = false := by
      rcases hop with ⟨r, v, rfl, hr⟩ | ⟨b, k, v, rfl⟩ | ⟨b, k, rfl⟩ | ⟨v, rfl⟩ | rfl | rfl | rfl
      · exact ⟨rfl, decide_eq_false (by omega)⟩
      all_goals exact ⟨rfl, rfl⟩
    exact step_refused_of_awaits hh hb hw ha hp

-- Reads of registers (R24, R32, R60)

/-- Settles O42: a read of `STATUS` is allowed while `BUSY`, so always. -/
theorem statusReadableAlways : Obligations.StatusReadableAlways := by
  intro s rest hh
  rw [step_of_host hh (hostRefusal_of_allowedWhileBusy s rfl)]
  rfl

/-- Where each field of R24 stands in the byte of `STATUS`. -/
theorem Status.byte_fields (st : Status) : st.byte.getLsbD 7 = false ∧ st.byte.extractLsb' 2 2 = 0 ∧
    st.byte.extractLsb' 4 3 = st.faultField ∧ st.byte.extractLsb' 0 2 = st.stateField := by
  cases st with
  | idle => decide
  | busy => decide
  | done => decide
  | fault c => cases c <;> decide

/-- The codes of R201 are 1 to 5. -/
theorem LaunchFault.code_range (c : LaunchFault) : c.code ≠ 0 ∧ c.code.toNat ≤ 5 := by
  cases c <;> decide

/-- Settles O43: the fields stand where R24 puts them, and only `FAULT` carries a code. -/
theorem statusLayout : Obligations.StatusLayout := by
  refine ⟨rfl, rfl, rfl, rfl, rfl, rfl, rfl, rfl, fun st => ?_⟩
  obtain ⟨h7, h32, hfault, hstate⟩ := st.byte_fields
  rw [hfault, hstate]
  refine ⟨h7, h32, ?_⟩
  cases st with
  | idle => decide
  | busy => decide
  | done => decide
  | fault c => exact ⟨iff_of_true c.code_range.1 rfl, c.code_range.2⟩

theorem step_of_read {s : State} {r : Nat} {rest : List HostOp} (hh : s.host = .read r :: rest)
    (hf : s.hostRefusal (.read r) = none) (hr : r ≠ 1) :
    step s = .next ((s.setHost rest).setHeard (some (s.readReg r))) := by
  rw [step_of_host hh hf, HostOp.move, if_neg hr, Move.outcome_settle]
  rfl

/-- The register map (R60) as a chain of tests. -/
theorem readReg_eq (s : State) (r : Nat) : s.readReg r =
    if r = 1 then s.status.byte.toNat else if r = 2 then s.width.toNat else if r = 3 then s.height.toNat
    else if r = 4 then s.contrast.toNat else if r = 5 then s.scale.toNat else if r = 6 then s.pixlen
    else if r = 7 then s.redlen else if r = 8 then s.framelen else 0 := by
  unfold State.readReg
  split <;> simp_all

/-- Settles O44: the access is accepted and hands over what the register map gives. -/
theorem registerReads : Obligations.RegisterReads := by
  intro s r rest hh hb hw
  by_cases hr : r = 1
  · subst hr
    rw [statusReadableAlways s rest hh, decide_eq_false hb, Bool.and_false]
    rfl
  · have hf : s.hostRefusal (.read r) = none := by
      refine (hostRefusal_eq_none_iff s _).mpr (.inr ⟨hb, hw.imp_right fun ⟨h6, h7, h8⟩ => ?_⟩)
      simp [HostOp.allowedBeforePoll, h6, h7, h8]
    rw [step_of_read hh hf hr, readReg_eq, if_neg hr, if_neg hr]
    rfl

-- Elements (R27, R29, R30, R32, R50)

section Elements

variable {s : State} {b : Buffer} {k : Nat} {rest : List HostOp} (hf : s.HostFree)
include hf

theorem step_of_store {v : Byte} (hh : s.host = .store b k v :: rest) :
    step s = if k < bufferSize s.cfg b then .next ((s.setHost rest).hostStore b k v) else .fault (.noSuchElement b k) := by
  rw [step_of_host hh (hostRefusal_of_free hf _), HostOp.move, State.setHost_cfg]
  split <;> rfl

theorem step_of_load (hh : s.host = .load b k :: rest) :
    step s = if k < bufferSize s.cfg b then .next ((s.setHost rest).setHeard (some (s.byteAt b k).toNat))
      else .fault (.noSuchElement b k) := by
  rw [step_of_host hh (hostRefusal_of_free hf _), HostOp.move, State.setHost_cfg]
  split <;> rfl

end Elements

/-- Settles O47: inside the buffer the write is that of the element, and `FRAME` ignores it. -/
theorem elementWrites : Obligations.ElementWrites := by
  intro s b k v rest hh hf
  rw [step_of_store hf hh]
  refine ⟨fun hk => if_neg (by omega), fun hk hb => ?_, fun hk hb => ?_, fun hk hb => ?_⟩
  · subst hb
    rw [if_pos hk]
    rfl
  · subst hb
    exact ⟨(s.setHost rest).putPix k v, if_pos hk, rfl, fun j => State.pixAt_putPix _ k j v⟩
  · subst hb
    exact ⟨(s.setHost rest).putRed k v, if_pos hk, rfl, fun j => State.redAt_putRed _ k j v⟩

/-- Settles O60: inside the buffer the host hears the element's byte. -/
theorem elementReads : Obligations.ElementReads := by
  intro s b k rest hh hf
  rw [step_of_load hf hh]
  refine ⟨fun hk => if_neg (by omega), fun hk => ?_⟩
  rw [if_pos hk]
  cases b <;> rfl

-- Reset (R34, R230)

/-- Settles O50: the reset state lists no element and holds 0 in every register. -/
theorem resetValues : Obligations.ResetValues :=
  ⟨rfl, rfl, rfl, rfl, rfl, rfl, rfl, rfl, rfl, rfl, rfl, rfl, rfl⟩

/-- Settles O51: the reset is allowed while `BUSY`, so always. -/
theorem resetAbandonsCommand : Obligations.ResetAbandonsCommand := by
  intro s rest hh
  rw [step_of_host hh (hostRefusal_of_allowedWhileBusy s rfl)]
  rfl

end Sys2Proof.Machine
end

section
/-! PROOFS. The obligations of spec/20_memory.md: the frame that `ENC` writes (R54, R55, R56), the slots that a pixel of pass 2
reaches (R59), the host's writes of registers (R60), and the instances of a system (R67). -/

namespace Sys2Proof.Machine

-- The frame (R54, R55, R160)

theorem ceilDiv_eight (n : Nat) : ceilDiv n 8 = (n + 7) / 8 := rfl

theorem lowByte_toNat (x : Nat) : (lowByte x).toNat = x % 256 := by
  rw [lowByte, BitVec.toNat_ofNat, Nat.mod_mod]

theorem highByte_toNat {x : Nat} (h : x < 65536) : (highByte x).toNat = x / 256 := by
  rw [highByte, BitVec.toNat_ofNat]
  exact Nat.mod_eq_of_lt (by omega)

theorem entryBit_le_one (e : Byte) : entryBit e ≤ 1 := by
  unfold entryBit
  split <;> omega

/-- The eight weighted bits fit a byte, so none is lost (R160). -/
theorem pack8_toNat (e0 e1 e2 e3 e4 e5 e6 e7 : Byte) : (pack8 e0 e1 e2 e3 e4 e5 e6 e7).toNat =
    entryBit e0 * 128 + entryBit e1 * 64 + entryBit e2 * 32 + entryBit e3 * 16 + entryBit e4 * 8 + entryBit e5 * 4
      + entryBit e6 * 2 + entryBit e7 := by
  have h0 := entryBit_le_one e0
  have h1 := entryBit_le_one e1
  have h2 := entryBit_le_one e2
  have h3 := entryBit_le_one e3
  have h4 := entryBit_le_one e4
  have h5 := entryBit_le_one e5
  have h6 := entryBit_le_one e6
  have h7 := entryBit_le_one e7
  rw [pack8, BitVec.toNat_ofNat]
  exact Nat.mod_eq_of_lt (by omega)

/-- An entry beyond the array counts as 0 (R161, R162). -/
theorem entryBit_entry_mul (s : State) (q w : Nat) :
    entryBit (s.entry q) * w = if q < s.pixels ∧ s.redAt q ≠ 0 then w else 0 := by
  unfold entryBit State.entry
  by_cases hq : q < s.pixels <;> by_cases hr : s.redAt q = 0 <;> simp [hq, hr]

theorem packedByte_toNat (s : State) (k : Nat) : (s.packedByte k).toNat =
    ((List.range 8).map fun j => if 8 * k + j < s.pixels ∧ s.redAt (8 * k + j) ≠ 0 then 2 ^ (7 - j) else 0).sum := by
  simp only [← entryBit_entry_mul]
  rw [State.packedByte, pack8_toNat]
  rw [show List.range 8 = [0, 1, 2, 3, 4, 5, 6, 7] from rfl]
  simp only [List.map_cons, List.map_nil, List.sum_cons, List.sum_nil, Nat.add_zero]
  omega

/-- Settles O9: `ENC` changes `FRAME` and its own registers alone, and each byte of the frame is a header byte, a packed byte or
the one that was there. -/
theorem encCompletes : Obligations.EncCompletes := by
  intro s hr
  have header : ∀ j < 8, (runEnc s.begin).frameAt j = (s.begin.setTmp (headerTemps s.begin)).headerByte j :=
    fun j hj => by rw [runEnc_frameAt, if_pos hj]
  have hx : columnField (bytesPerRow s.width.toNat) = (2 * ((s.width.toNat + 7) / 8)) % 65536 := by
    rw [columnField, bytesPerRow, ceilDiv_eight, Nat.mul_comm]
  refine ⟨runEnc s.begin, exec_of_ready (i := .enc) hr, ?only, ?opc0, ?opc1, ?opc2, ?scale, ?xL, ?xH, ?yL, ?yH, ?packed,
    ?beyond⟩
  case only => rw [runEnc_only]; rfl
  case opc0 => exact header 0 (by omega)
  case opc1 => exact header 1 (by omega)
  case opc2 => exact header 2 (by omega)
  case scale => exact header 3 (by omega)
  case xL =>
    rw [header 4 (by omega), ← hx]
    exact lowByte_toNat _
  case xH =>
    rw [header 5 (by omega), ← hx]
    exact highByte_toNat (Nat.mod_lt _ (by omega))
  case yL =>
    rw [header 6 (by omega)]
    exact lowByte_toNat _
  case yH =>
    rw [header 7 (by omega)]
    exact highByte_toNat (Nat.mod_lt _ (by omega))
  case packed =>
    intro k hk
    have hin : 8 + k < 8 + s.begin.packedBytes := Nat.add_lt_add_left hk 8
    rw [runEnc_frameAt, if_neg (by omega), if_pos hin, Nat.add_sub_cancel_left, packedByte_toNat]
    rfl
  case beyond =>
    intro k hk
    rw [runEnc_framelen] at hk
    rw [runEnc_frameAt, if_neg (by omega), if_neg (by omega)]
    rfl

-- The taps (R59, R136, R137, R139)

/-- Of distinct taps at most one reaches a slot. -/
theorem sum_taps_of_nodup {ds : List Nat} (hd : ds.Nodup) (j k n : Nat) (e : Int) :
    (ds.map fun d => if j + d = k ∧ k < n then e else 0).sum = if k < n ∧ ∃ d ∈ ds, j + d = k then e else 0 := by
  induction ds with
  | nil => simp
  | cons d ds ih =>
    obtain ⟨hnew, hds⟩ := List.nodup_cons.mp hd
    rw [List.map_cons, List.sum_cons, ih hds]
    simp only [List.mem_cons, exists_eq_or_imp]
    by_cases hk : j + d = k
    · have hrest : ¬ ∃ d' ∈ ds, j + d' = k := fun ⟨d', hmem, hd'⟩ => hnew (by rwa [show d = d' by omega])
      simp [hk, hrest]
    · simp [hk]

theorem tapOffsets_nodup {width : Nat} (h : 4 ≤ width) : (tapOffsets width).Nodup := by
  simp only [tapOffsets, List.nodup_cons, List.mem_cons, List.not_mem_nil, List.nodup_nil, or_false, not_false_iff, and_true]
  omega

/-- What pixel `p` of pass 2 does to every slot where the six taps are distinct. -/
theorem diffusePixel_workAt_of_four_le {s : State} (h : 4 ≤ s.width.toNat) (p k : Nat) :
    (diffusePixel p s).workAt k = s.workAt k +
      if k < 4 * s.pixels ∧ ∃ d ∈ tapOffsets s.width.toNat, 4 * p + d = k then
        diffusionError (s.workAt (4 * p)) (quantise (s.workAt (4 * p)) s.contrast) else 0 := by
  rw [diffusePixel_workAt, sum_taps_of_nodup (tapOffsets_nodup h)]

/-- A tap of four times the distance in pixels leads from a pixel's slot to a pixel's slot (R52, R136). -/
theorem exists_tapOffset_iff {width : Nat} (h : 1 ≤ width) (p q : Nat) :
    (∃ d ∈ tapOffsets width, 4 * p + d = 4 * q) ↔
      q = p + 1 ∨ q = p + 2 ∨ q = p + width - 1 ∨ q = p + width ∨ q = p + width + 1 ∨ q = p + 2 * width := by
  obtain ⟨w, rfl⟩ := Nat.exists_eq_add_of_le' h
  simp only [tapOffsets, List.mem_cons, List.not_mem_nil, or_false, exists_eq_or_imp, exists_eq_left]
  omega

/-- Settles O35: the six taps are distinct, so each pixel they reach gets the error once; they reach no slot that is not a
pixel's. -/
theorem tapsReachSixPixels : Obligations.TapsReachSixPixels := by
  intro s p hw
  refine ⟨fun q hq => ?_, fun k hk => ?_⟩
  · have hin : 4 * q < 4 * s.pixels := by omega
    simp only [diffusePixel_workAt_of_four_le hw, exists_tapOffset_iff (show 1 ≤ s.width.toNat by omega), hin, true_and]
  · rw [diffusePixel_workAt_of_four_le hw, if_neg, Int.add_zero]
    rintro ⟨hin, d, hd, hdk⟩
    have haligned := tapOffsets_aligned _ d hd
    omega

-- Writes of registers (R32, R60)

theorem step_of_write {s : State} {r v : Nat} {rest : List HostOp} (hh : s.host = .write r v :: rest)
    (hb : s.status ≠ .busy) (hw : s.awaits = false ∨ 9 ≤ r) (hr : r ≠ 0) :
    step s = .next ((s.setHost rest).writeReg r v) := by
  have hf : s.hostRefusal (.write r v) = none :=
    (hostRefusal_eq_none_iff s _).mpr (.inr ⟨hb, hw.imp_right fun h9 => decide_eq_true h9⟩)
  rw [step_of_host hh hf, HostOp.move, if_neg hr, Move.outcome_settle]

/-- The registers the host cannot write, and the numbers that are no register (R60). -/
theorem writeReg_ignored (s : State) {r : Nat} (hr : r = 1 ∨ 8 ≤ r) (v : Nat) : s.writeReg r v = s := by
  rcases hr with rfl | h8
  · rfl
  · obtain ⟨m, rfl⟩ := Nat.exists_eq_add_of_le' h8
    rfl

/-- Settles O45: the access is accepted and is the register map's write; a value that fits is not cut. -/
theorem registerWrites : Obligations.RegisterWrites := by
  intro s r v rest hh hb hw hr
  rw [step_of_write hh hb hw hr]
  refine ⟨?width, ?height, ?contrast, ?scale, ?pixlen, ?redlen, ?ignored⟩
  case width => rintro rfl -; rfl
  case height => rintro rfl -; rfl
  case contrast => rintro rfl -; rfl
  case scale => rintro rfl -; rfl
  case pixlen =>
    rintro rfl hv
    rw [State.writeReg, State.setHost_cfg, Nat.mod_eq_of_lt hv]
    rfl
  case redlen =>
    rintro rfl hv
    rw [State.writeReg, State.setHost_cfg, Nat.mod_eq_of_lt hv]
    rfl
  case ignored =>
    intro hi
    rw [writeReg_ignored _ hi]
    rfl

-- Instances (R67, R211)

theorem stepInstance_of_step {system : List State} {k : Nat} {s t : State} (hk : system[k]? = some s)
    (ht : step s = .next t) : stepInstance system k = .next (system.set k t) := by
  simp only [stepInstance, hk, ht]

/-- A step of the system at `k` replaces entry `k`, if there is one, and nothing else. -/
theorem stepInstance_cases {system after : List State} {k : Nat} (h : stepInstance system k = .next after) :
    after = system ∨ ∃ t, after = system.set k t := by
  unfold stepInstance at h
  split at h
  · exact .inl (Host.Outcome.next.inj h).symm
  · split at h
    · exact .inr ⟨_, (Host.Outcome.next.inj h).symm⟩
    · cases h
    · cases h

/-- Settles O59: the step replaces the entry it is taken at by that entry's own next state. -/
theorem instancesShareNothing : Obligations.InstancesShareNothing := by
  intro system k
  refine ⟨fun s t hk ht => ⟨system.set k t, stepInstance_of_step hk ht, ?_, List.length_set⟩, fun after j h hj => ?_⟩
  · obtain ⟨hlt, -⟩ := List.getElem?_eq_some_iff.mp hk
    exact List.getElem?_set_self hlt
  · rcases stepInstance_cases h with rfl | ⟨t, rfl⟩
    · rfl
    · exact List.getElem?_set_ne hj.symm

end Sys2Proof.Machine
end

section
/-! PROOFS. The obligations of spec/30_encoding.md: command bytes (R80 to R82), the frame of each command (R83), the length
of the frame and its size fields (R89 to R91), and the host's statements (R93, R94). -/

namespace Sys2Proof.Machine

-- Command bytes (R80, R81, R82)

/-- Settles O1: each byte is one comparison of the decoder's chain. -/
theorem commandWordsDecode : Obligations.CommandWordsDecode := ⟨rfl, rfl, rfl, rfl, rfl, rfl, rfl⟩

theorem decode_encode (i : Instr) (rest : List Byte) : decode (encode i ++ rest) = .ok (i, rest) := by
  cases i <;> rfl

/-- The decoder reads the first byte alone. -/
theorem decodeByte_of_decode_cons {b : Byte} {rest tail : List Byte} {i : Instr} (h : decode (b :: rest) = .ok (i, tail)) :
    decodeByte b = some i := by
  rw [decodeByte_eq_some_iff]
  simp only [decode] at h ⊢
  split_ifs at h ⊢ <;> cases h <;> rfl

/-- Settles O2: the decoder inverts the encoder, and a byte decodes to no command but the one it encodes. -/
theorem decodeEncodeAgree : Obligations.DecodeEncodeAgree := by
  refine ⟨decode_encode, fun b rest i h => ?_⟩
  rw [encode, ← decodeByte_eq_some (decodeByte_of_decode_cons h)]

theorem FormatC.byte_zeroField (f : FormatC) : f.byte.extractLsb' 2 6 = f.zero := by
  obtain ⟨zero, unit, dither⟩ := f
  cases unit <;> cases dither <;> revert zero <;> decide

/-- A byte whose `zero` field is not 0 is none of the four low bytes (R82). -/
theorem decode_of_zeroField {b : Byte} (h : b.extractLsb' 2 6 ≠ 0) : decode [b] = .error (.zeroField b) := by
  have hne : ∀ n : Byte, n.extractLsb' 2 6 = 0 → b ≠ n := fun n hn hb => h (hb ▸ hn)
  rw [decode, if_neg (hne _ rfl), if_neg (hne _ rfl), if_neg (hne _ rfl), if_neg (hne _ rfl)]

/-- Settles O3: with the `zero` field at 0 four bytes are left, three of them commands. -/
theorem formatCFieldsDecide : Obligations.FormatCFieldsDecide := by
  intro f
  refine ⟨fun hw => ?wellFormed, fun hz => ?zeroField, fun hz hu hd => ?encoderDither⟩
  case wellFormed =>
    obtain ⟨zero, unit, dither⟩ := f
    simp only [FormatC.wellFormed, Bool.and_eq_true, beq_iff_eq, Bool.not_eq_true'] at hw
    obtain ⟨rfl, hud⟩ := hw
    match unit, dither, hud with
    | false, false, _ => exact ⟨.redT, rfl, rfl⟩
    | false, true, _ => exact ⟨.redD, rfl, rfl⟩
    | true, false, _ => exact ⟨.enc, rfl, rfl⟩
  case zeroField => exact decode_of_zeroField (by rwa [FormatC.byte_zeroField])
  case encoderDither =>
    obtain ⟨zero, unit, dither⟩ := f
    obtain rfl : zero = 0 := hz
    obtain rfl : unit = true := hu
    obtain rfl : dither = true := hd
    rfl

/-- Settles O6: a reserved byte decodes to no command, so either way of launching it raises `CV_CMD`. -/
theorem reservedByteFaults : Obligations.ReservedByteFaults := by
  intro s v rest hf hh hv
  have hd : decodeByte (BitVec.ofNat 8 v) = none := decodeByte_reserved (by rwa [BitVec.toNat_ofNat])
  rcases hh with hh | hh
  · rw [step_of_host hh (hostRefusal_of_free hf _), HostOp.move, if_pos rfl, State.command, hd]
    rfl
  · rw [step_of_host hh (hostRefusal_of_free hf _), HostOp.move, State.start, hd]
    rfl

-- What a command leaves unchanged (R83, R204, R205)

/-- A command that answers a next state has either raised a fault, changing `STATUS` alone, or run with its operands ready. -/
theorem exec_cases {i : Instr} {s t : State} (h : exec i s = .next t) :
    (∃ c, t = s.setStatus (.fault c)) ∨ s.Ready i ∧ t = runCommand i s.begin := by
  rw [exec_eq_launch] at h
  rcases launch_cases h with ⟨c, -, ht⟩ | ⟨hc, ht⟩
  · exact .inl ⟨c, ht⟩
  · exact .inr ⟨(launchCheck_eq_none_iff s i).mp hc, ht⟩

theorem eq_runCommand_of_done {i : Instr} {s t : State} (h : exec i s = .next t) (hd : t.status = .done) :
    t = runCommand i s.begin := by
  rcases exec_cases h with ⟨c, rfl⟩ | ⟨-, ht⟩
  · cases hd
  · exact ht

theorem eq_setStatus_of_not_done {i : Instr} {s t : State} (h : exec i s = .next t) (hd : t.status ≠ .done) :
    ∃ c, t = s.setStatus (.fault c) := by
  rcases exec_cases h with hc | ⟨-, rfl⟩
  · exact hc
  · exact absurd (runCommand_status i _) hd

theorem exec_workAt {i : Instr} {s t : State} (hi : i ≠ .redD) (h : exec i s = .next t) (k : Nat) :
    t.workAt k = s.workAt k := by
  refine exec_view (f := fun u => State.workAt u k) (fun _ _ => rfl) (fun u => ?_) h
  cases i with
  | redT => exact runRedT_workAt u k
  | redD => exact absurd rfl hi
  | enc => exact runEnc_workAt u k

/-- Pass 2 writes the entries of the pixels it visits (R133). -/
theorem diffuseLoop_redAt_of_le {n p : Nat} (hp : n ≤ p) (s : State) :
    (loop diffusePixel n 0 s).redAt p = s.redAt p := by
  induction n with
  | zero => rfl
  | succ n ih => rw [loop_succ_last, diffusePixel_redAt, if_neg (by omega), ih (by omega)]

theorem luminancePass_redAt (s : State) (p : Nat) : (luminancePass s).redAt p = s.redAt p := by
  rw [luminancePass_only_work]
  rfl

/-- No command reaches an entry at or above the pixel count (R50, R83). -/
theorem runCommand_redAt_of_le (i : Instr) {s : State} {p : Nat} (hp : s.pixels ≤ p) :
    (runCommand i s).redAt p = s.redAt p := by
  cases i with
  | redT => exact (runRedT_redAt s p).trans (if_neg (by omega))
  | redD => exact (diffuseLoop_redAt_of_le hp _).trans (luminancePass_redAt s p)
  | enc => exact runEnc_redAt s p

theorem exec_redAt_of_le {i : Instr} {s t : State} (h : exec i s = .next t) {p : Nat} (hp : s.pixels ≤ p) :
    t.redAt p = s.redAt p := by
  rcases exec_cases h with ⟨c, rfl⟩ | ⟨-, rfl⟩
  · rfl
  · exact runCommand_redAt_of_le i hp

/-- What a reducer command does to the length of its result (R141). -/
theorem runCommand_redlen {i : Instr} (hi : i ≠ .enc) (s : State) : (runCommand i s).redlen = s.pixels := by
  cases i with
  | redT => exact runRedT_redlen s
  | redD => exact runRedD_redlen s
  | enc => exact absurd rfl hi

/-- How a reducer command leaves the reduced array, completed or not (R29, R205). -/
theorem exec_red_frame {i : Instr} (hi : i ≠ .enc) {s t : State} (h : exec i s = .next t) :
    (∀ p, s.pixels ≤ p → t.redAt p = s.redAt p) ∧ (t.status ≠ .done → ∀ p, t.redAt p = s.redAt p) ∧
      (t.status = .done → t.redlen = s.pixels) ∧ (t.status ≠ .done → t.redlen = s.redlen) := by
  refine ⟨fun p => exec_redAt_of_le h, fun hd p => ?_, fun hd => ?_, fun hd => ?_⟩
  · obtain ⟨c, rfl⟩ := eq_setStatus_of_not_done h hd
    rfl
  · rw [eq_runCommand_of_done h hd]
    exact runCommand_redlen hi s.begin
  · obtain ⟨c, rfl⟩ := eq_setStatus_of_not_done h hd
    rfl

/-- Settles O15: what the core never changes, what no reducer command changes, and the reduced array. -/
theorem redTFrame : Obligations.RedTFrame := by
  intro s t h
  have hk := exec_keeps h
  obtain ⟨hframelen, hframe⟩ := (frameView_eq_iff s t).mp (exec_frameView (i := .redT) (by decide) h)
  exact ⟨hk.sameOperands, hk.cfg, hk.pixlen, hframelen, hk.epoch, hk.serial, hk.host, hk.heard, hk.awaits, hk.pixAt, hframe,
    exec_workAt (i := .redT) (by decide) h, exec_red_frame (i := .redT) (by decide) h⟩

/-- The taps of a pixel reach slots of the image alone (R52, R137). -/
theorem diffusePixel_workAt_outside {s : State} {k : Nat} (hk : 4 * s.pixels ≤ k ∨ k % 4 ≠ 0) (p : Nat) :
    (diffusePixel p s).workAt k = s.workAt k := by
  rw [diffusePixel_workAt, List.sum_eq_zero, Int.add_zero]
  intro x hx
  obtain ⟨d, hd, rfl⟩ := List.mem_map.mp hx
  have haligned := tapOffsets_aligned _ d hd
  exact if_neg (by omega)

/-- Neither pass of `RED.D` writes a slot outside the image (R52, R115, R133). -/
theorem runRedD_workAt_outside {s : State} {k : Nat} (hk : 4 * s.pixels ≤ k ∨ k % 4 ≠ 0) :
    (runRedD s).workAt k = s.workAt k := by
  have hpass1 : (luminancePass s).workAt k = s.workAt k :=
    (luminancePass_workAt s k).trans (if_neg (by omega))
  have hpixels : (luminancePass s).pixels = s.pixels := by
    rw [luminancePass_only_work]
    rfl
  have hpass2 := loop_induction (body := diffusePixel) (fun _ t => t.pixels = s.pixels ∧ t.workAt k = s.workAt k)
    (luminancePass s) ⟨hpixels, hpass1⟩ (fun p t ⟨hp, hw⟩ =>
      ⟨(diffusePixel_keeps p t).pixels.trans hp, (diffusePixel_workAt_outside (hp ▸ hk) p).trans hw⟩) s.pixels
  exact hpass2.2

/-- Settles O16: as for `RED.T`, but the slots of the image are left out. -/
theorem redDFrame : Obligations.RedDFrame := by
  intro s t h
  have hk := exec_keeps h
  obtain ⟨hframelen, hframe⟩ := (frameView_eq_iff s t).mp (exec_frameView (i := .redD) (by decide) h)
  refine ⟨hk.sameOperands, hk.cfg, hk.pixlen, hframelen, hk.epoch, hk.serial, hk.host, hk.heard, hk.awaits, hk.pixAt, hframe,
    fun k hout => ?_, exec_red_frame (i := .redD) (by decide) h⟩
  rcases exec_cases h with ⟨c, rfl⟩ | ⟨-, rfl⟩
  · rfl
  · exact runRedD_workAt_outside (s := s.begin) hout

theorem exec_enc_framelen {s t : State} (h : exec .enc s = .next t) (hd : t.status = .done) :
    t.framelen = 8 + ceilDiv s.pixels 8 := by
  rw [eq_runCommand_of_done h hd]
  exact runEnc_framelen s.begin

/-- Settles O17: `ENC` writes bytes below the new `FRAMELEN` alone. -/
theorem encFrame : Obligations.EncFrame := by
  intro s t h
  have hk := exec_keeps h
  obtain ⟨hredlen, hred⟩ := (redView_eq_iff s t).mp (exec_enc_redView h)
  refine ⟨hk.sameOperands, hk.cfg, hk.pixlen, hredlen, hk.epoch, hk.serial, hk.host, hk.heard, hk.awaits, hk.pixAt, hred,
    exec_workAt (i := .enc) (by decide) h, fun k hout => ?beyond, fun hd k => ?bytes, exec_enc_framelen h, fun hd => ?length⟩
  case beyond =>
    rcases exec_cases h with ⟨c, rfl⟩ | ⟨-, rfl⟩
    · rfl
    · have hbeyond : ¬ k < 8 + s.begin.packedBytes := Nat.not_lt.mpr hout
      exact (runEnc_frameAt s.begin k).trans (by rw [if_neg (by omega), if_neg hbeyond, State.begin_frameAt])
  case bytes =>
    obtain ⟨c, rfl⟩ := eq_setStatus_of_not_done h hd
    rfl
  case length =>
    obtain ⟨c, rfl⟩ := eq_setStatus_of_not_done h hd
    rfl

-- The length and the size fields of the frame (R89, R90, R91)

/-- A row padded to whole bytes takes no fewer bits than the row. -/
theorem ceilDiv_mul_le (w h : Nat) : ceilDiv (w * h) 8 ≤ ceilDiv w 8 * h := by
  have hrow : w ≤ 8 * ceilDiv w 8 := by unfold ceilDiv; omega
  have harray : w * h ≤ 8 * (ceilDiv w 8 * h) := (Nat.mul_le_mul_right h hrow).trans_eq (Nat.mul_assoc _ _ _)
  rw [ceilDiv_eight (w * h)]
  omega

/-- Rows of whole bytes leave no padding between them, and one row has none (R163). -/
theorem ceilDiv_mul_eq {w h : Nat} (hpad : w % 8 = 0 ∨ h = 1) : ceilDiv (w * h) 8 = ceilDiv w 8 * h := by
  rcases hpad with hw | rfl
  · have hrow : w = 8 * ceilDiv w 8 := by unfold ceilDiv; omega
    have harray : w * h = 8 * (ceilDiv w 8 * h) := (congrArg (· * h) hrow).trans (Nat.mul_assoc _ _ _)
    rw [ceilDiv_eight (w * h)]
    omega
  · rw [Nat.mul_one, Nat.mul_one]

/-- Settles O26: packing the array as one bit stream pads it once, not once per row. -/
theorem frameLength : Obligations.FrameLength := by
  intro s t h hd
  have hlen : t.framelen = 8 + ceilDiv (s.width.toNat * s.height.toNat) 8 := exec_enc_framelen h hd
  refine ⟨hlen, ?_, fun hpad => ?_⟩
  · rw [hlen]
    exact Nat.add_le_add_left (ceilDiv_mul_le _ _) 8
  · rw [hlen, ceilDiv_mul_eq hpad]

/-- The two bytes of a 16-bit field, low byte first. -/
theorem lowByte_add_highByte {x : Nat} (h : x < 65536) : (lowByte x).toNat + 256 * (highByte x).toNat = x := by
  rw [lowByte_toNat, highByte_toNat h, Nat.mod_add_div]

/-- Settles O27: the header stores each field as its low byte and its high byte. -/
theorem headerFieldsLittleEndian : Obligations.HeaderFieldsLittleEndian := by
  intro s t h hd
  have header : ∀ j < 8, t.frameAt j = (s.begin.setTmp (headerTemps s.begin)).headerByte j := by
    intro j hj
    rw [eq_runCommand_of_done h hd]
    exact (runEnc_frameAt s.begin j).trans (if_pos hj)
  rw [header 4 (by omega), header 5 (by omega), header 6 (by omega), header 7 (by omega)]
  exact ⟨lowByte_add_highByte (Nat.mod_lt _ (by omega)), lowByte_add_highByte (Nat.mod_lt _ (by omega))⟩

-- The host's statements (R93, R94)

theorem readStatus_of_not_busy {s : State} (hb : s.status ≠ .busy) :
    s.readStatus = s.onHost s.host (some s.status.byte.toNat) false := by
  rw [State.readStatus, decide_eq_false hb, Bool.and_false]
  rfl

/-- The poll of `WAIT` that reads `DONE` or `FAULT` is its last (R93). -/
theorem step_of_wait_over {s : State} {rest : List HostOp} (hh : s.host = .wait :: rest)
    (hs : s.status = .done ∨ ∃ c, s.status = .fault c) :
    step s = .next (s.onHost rest (some s.status.byte.toNat) false) := by
  have hb : (s.setHost rest).status ≠ .busy := by rcases hs with hd | ⟨c, hc⟩ <;> simp [*]
  have hpoll : (s.setHost rest).poll = (s.setHost rest).readStatus := by
    rcases hs with hd | ⟨c, hc⟩ <;> simp only [State.poll, State.setHost_status, *]
  rw [step_of_wait hh, hpoll, readStatus_of_not_busy hb]
  rfl

/-- A poll of `WAIT` before any command leaves it pending (R93). -/
theorem step_of_wait_idle {s : State} {rest : List HostOp} (hh : s.host = .wait :: rest) (hs : s.status = .idle) :
    step s = .next (s.onHost s.host (some 0x00) false) := by
  have hb : (s.setHost rest).status ≠ .busy := by simp [hs]
  rw [step_of_wait hh, State.poll, State.setHost_status, readStatus_of_not_busy hb, State.setHost_status, hs, hh]
  rfl

theorem step_of_pause {s : State} {rest : List HostOp} (hh : s.host = .pause :: rest) :
    step s = .next (s.setHost rest).advance := step_of_host hh (hostRefusal_of_allowedWhileBusy s rfl)

/-- Settles O40: with no access to data a step is the sequencer's move, made beside the reading of `STATUS` by a `WAIT`. -/
theorem sequencerMovesOnlyWhileBusy : Obligations.SequencerMovesOnlyWhileBusy := by
  intro s
  refine ⟨fun hh => ⟨step_of_nil_busy hh, fun hb => ?_⟩, fun rest => ⟨fun hh => ⟨fun hb => ?_, fun hb => ?_⟩, fun hh =>
    ⟨fun hb => ?busy, fun hi => ?idle, step_of_wait_done hh, fun c hc => ?fault⟩⟩⟩
  · rw [step_of_nil hh, State.advance, if_neg hb]
  · exact (step_of_pause hh).trans (congrArg _ (if_pos hb))
  · exact (step_of_pause hh).trans (congrArg _ (if_neg hb))
  case busy => rw [step_of_wait_busy hh hb, tick_setHeard]
  case idle => exact step_of_wait_idle hh hi
  case fault => rw [step_of_wait_over hh (.inr ⟨c, hc⟩), ← hc]; rfl

theorem step_of_whenDone {s : State} {n : Nat} {rest : List HostOp} (hh : s.host = .whenDone n :: rest) :
    step s = .next ((s.setHost rest).branchDone n) := step_of_host hh (hostRefusal_of_allowedWhileBusy s rfl)

/-- At `DONE` the condition of R94 holds, and the next statements stay. -/
theorem step_of_whenDone_done {s : State} {n : Nat} {rest : List HostOp} (hh : s.host = .whenDone n :: rest)
    (hd : s.status = .done) : step s = .next (s.onHost rest (some 0x02) false) := by
  have hb : (s.setHost rest).status ≠ .busy := by simp [hd]
  rw [step_of_whenDone hh, State.branchDone, readStatus_of_not_busy hb, State.setHost_status, hd, if_pos rfl]
  rfl

/-- At `FAULT` the condition of R94 fails, and the next `n` statements are left out. -/
theorem step_of_whenDone_fault {s : State} {n : Nat} {rest : List HostOp} {c : LaunchFault}
    (hh : s.host = .whenDone n :: rest) (hc : s.status = .fault c) :
    step s = .next (s.onHost (rest.drop n) (some (Status.fault c).byte.toNat) false) := by
  have hb : (s.setHost rest).status ≠ .busy := by simp [hc]
  rw [step_of_whenDone hh, State.branchDone, readStatus_of_not_busy hb, State.setHost_status, hc, if_neg (by simp)]
  rfl

theorem exec_status {i : Instr} {s t : State} (h : exec i s = .next t) : t.status = .done ∨ ∃ c, t.status = .fault c := by
  rcases exec_cases h with ⟨c, rfl⟩ | ⟨-, rfl⟩
  · exact .inr ⟨c, rfl⟩
  · exact .inl (runCommand_status i _)

theorem decodeByte_commandByte (i : Instr) : decodeByte (BitVec.ofNat 8 i.fields.byte.toNat) = some i := by
  cases i <;> rfl

/-- `i ; WAIT`: two steps reach what the command answers, its outcome read. -/
theorem run_of_command_wait {i : Instr} {s t : State} {rest : List HostOp} (hf : s.HostFree)
    (hh : s.host = commandStatement i :: .wait :: rest) (h : exec i s = .next t) (n : Nat) :
    Host.Core.run Sys2Proof.core (n + 2) s =
      Host.Core.run Sys2Proof.core n (t.onHost rest (some t.status.byte.toNat) false) := by
  have hexec := exec_onHost (.wait :: rest) s.heard true h
  rw [core_run_succ (n + 1) _ _ ((step_of_command hf hh (decodeByte_commandByte i)).trans hexec),
    core_run_succ n _ _ (step_of_wait_over rfl (exec_status hexec))]
  rfl

/-- A host that awaits as before differs in its list and in what it heard. -/
theorem onHost_of_awaits {s : State} {a : Bool} (ha : s.awaits = a) (l : List HostOp) (x : Option Nat) :
    s.onHost l x a = { s with host := l, heard := x } := by
  subst ha
  rfl

section Convert

variable {i : Instr} {s t : State} {rest : List HostOp} (hf : s.HostFree)
  (hh : s.host = commandStatement i :: .wait :: .whenDone 2 :: commandStatement .enc :: .wait :: rest)
  (h : exec i s = .next t)
include hf hh h

/-- A conversion whose first command faulted leaves the encoder out (R94). -/
theorem run_convert_of_fault {c : LaunchFault} (hc : t.status = .fault c) :
    Host.Core.run Sys2Proof.core 3 s = .next { t with host := rest, heard := some (Status.fault c).byte.toNat } := by
  rw [← onHost_of_awaits ((exec_keeps h).awaits.trans hf.2)]
  exact (run_of_command_wait hf hh h 1).trans (core_run_succ 0 _ _ (step_of_whenDone_fault (s := t.onHost _ _ _) rfl hc))

/-- A conversion whose first command completed runs the encoder, whichever way that ends (R94). -/
theorem run_convert_of_done {u : State} (hd : t.status = .done) (hu : exec .enc t = .next u) :
    Host.Core.run Sys2Proof.core 5 s = .next { u with host := rest, heard := some u.status.byte.toNat } := by
  have hexec := exec_onHost (commandStatement .enc :: .wait :: rest) (some 0x02) false hu
  have hfree : (t.onHost (commandStatement .enc :: .wait :: rest) (some 0x02) false).HostFree :=
    ⟨by simp [State.onHost, hd], rfl⟩
  rw [← onHost_of_awaits ((exec_keeps hu).awaits.trans ((exec_keeps h).awaits.trans hf.2))]
  calc Host.Core.run Sys2Proof.core 5 s
    _ = Host.Core.run Sys2Proof.core 3 (t.onHost _ _ _) := run_of_command_wait hf hh h 3
    _ = Host.Core.run Sys2Proof.core 2 (t.onHost _ _ _) := core_run_succ 2 _ _ (step_of_whenDone_done rfl hd)
    _ = .next (u.onHost rest (some u.status.byte.toNat) false) := run_of_command_wait hfree rfl hexec 0

end Convert

theorem ready_iff_reducerReady {i : Instr} (hi : i ≠ .enc) (s : State) : s.Ready i ↔ s.ReducerReady := by
  cases i with
  | redT => rfl
  | redD => rfl
  | enc => exact absurd rfl hi

section AfterReducer

variable {i : Instr} {s t : State} (hr : s.ReducerReady) (h : exec i s = .next t)
include hr h

/-- A completed reducer command leaves all the encoder needs, `SCALE` apart (R181, R232, R233). -/
theorem encoderReady_after_reducer (hi : i ≠ .enc) (hd : t.status = .done) (hscale : s.scale.toNat ≤ 3) :
    t.EncoderReady := by
  have hk := exec_keeps h
  obtain ⟨-, -, hredlen, -⟩ := exec_red_frame hi h
  obtain ⟨hwidth, hheight, hpixels, -⟩ := hr
  refine ⟨by rwa [hk.width], by rwa [hk.height], by rwa [hk.scale], by rwa [hk.width, hk.height, hk.cfg], ?_⟩
  rw [hredlen hd, hk.width, hk.height]
  rfl

/-- The dimensions the reducer accepted are not in the encoder's way, so it is `SCALE` it faults for (R181, R203). -/
theorem exec_enc_cvScale_after_reducer (hscale : 3 < s.scale.toNat) :
    exec .enc t = .next (t.setStatus (.fault .cvScale)) := by
  have hk := exec_keeps h
  obtain ⟨hwidth, hheight, -⟩ := hr
  have hcheck : t.encoderCheck = some .cvScale := by
    rw [State.encoderCheck, hk.width, hk.height, hk.scale, if_neg (not_or.mpr ⟨hwidth, hheight⟩), if_pos hscale]
  rw [exec_eq_launch, State.launchCheck, hcheck, launch_fault]

end AfterReducer

/-- Settles O49: two steps launch the reducer and read its outcome, one decides on it, and two do the same with the encoder. -/
theorem convertRunsBothUnits : Obligations.ConvertRunsBothUnits := by
  intro s i rest hf hcvt
  obtain ⟨hi, hh⟩ : i ≠ .enc ∧
      s.host = commandStatement i :: .wait :: .whenDone 2 :: commandStatement .enc :: .wait :: rest := by
    rcases hcvt with ⟨rfl, hh⟩ | ⟨rfl, hh⟩
    · exact ⟨by decide, hh⟩
    · exact ⟨by decide, hh⟩
  refine ⟨fun hr => ?_, fun hn => ?_⟩
  · obtain ⟨t, hexec, hd⟩ : ∃ t, exec i s = .next t ∧ t.status = .done :=
      ⟨_, exec_of_ready ((ready_iff_reducerReady hi s).mpr hr), runCommand_status i _⟩
    refine ⟨t, hexec, hd, fun hscale => ?_, fun hscale => ?_⟩
    · obtain ⟨u, hu, hud⟩ : ∃ u, exec .enc t = .next u ∧ u.status = .done :=
        ⟨_, exec_of_ready (i := .enc) (encoderReady_after_reducer hr hexec hi hd hscale), runCommand_status .enc _⟩
      have hheard : u.status.byte.toNat = 0x02 := by rw [hud]; rfl
      exact ⟨u, hu, hud, by rw [run_convert_of_done hf hh hexec hd hu, hheard]⟩
    · have hheard : (Status.fault .cvScale).byte.toNat = 0x33 := rfl
      rw [← hheard]
      exact run_convert_of_done hf hh hexec hd (exec_enc_cvScale_after_reducer hr hexec hscale)
  · obtain ⟨c, hexec, -⟩ := launch_of_not_ready (mt (ready_iff_reducerReady hi s).mp hn)
    exact ⟨c, hexec, run_convert_of_fault hf hh hexec rfl⟩

end Sys2Proof.Machine
end

section
/-! PROOFS. The obligations of spec/40_luminance_weighting.md: the tables (R110), the weighted luminance (R111, R112), the
average test of threshold mode (R113, R132), and the array that `RED.D` makes of the luminances (R115, R133 to R138). -/

namespace Sys2Proof.Machine

-- The tables and the two forms of luminance (R110 to R113)

/-- Settles O28: a sample is at most 255, which bounds its entry in each table. -/
theorem tableContents : Obligations.TableContents := by
  intro i
  have hi := i.isLt
  refine ⟨rfl, rfl, rfl, ?_, ?_, ?_⟩
  · unfold lumR; omega
  · unfold lumG; omega
  · unfold lumB; omega

/-- R111: the weighted sum in thousandths, with the tables' entries written out. -/
theorem lum_eq (r g b : Byte) : lum r g b = (299 * r.toNat + 587 * g.toNat + 114 * b.toNat) / 1000 := rfl

theorem lum_cast (r g b : Byte) :
    (lum r g b : Int) = (299 * (r.toNat : Int) + 587 * (g.toNat : Int) + 114 * (b.toNat : Int)) / 1000 := by
  rw [lum_eq]
  push_cast
  rfl

theorem lum_sum_le (r g b : Byte) : lumR r + lumG g + lumB b ≤ 255000 := by
  have hr := r.isLt
  have hg := g.isLt
  have hb := b.isLt
  unfold lumR lumG lumB
  omega

theorem lum_le (r g b : Byte) : lum r g b ≤ 255 := Nat.div_le_div_right (c := 1000) (lum_sum_le r g b)

/-- R112 (b): the weights are not negative, and division by 1000 is monotone. -/
theorem lum_mono {r g b r' g' b' : Byte} (hr : r ≤ r') (hg : g ≤ g') (hb : b ≤ b') : lum r g b ≤ lum r' g' b' := by
  rw [BitVec.le_def] at hr hg hb
  rw [lum_eq, lum_eq]
  omega

/-- R111: the three weights sum to 1000 thousandths. -/
theorem lum_grey (g : Byte) : lum g g g = g.toNat := by
  rw [lum_eq]
  omega

/-- Settles O29: the bounds, the exact floor, monotonicity and grey, each from its own lemma. -/
theorem luminanceExact : Obligations.LuminanceExact :=
  ⟨fun r g b => ⟨lum_sum_le r g b, (lum_sum_le r g b).trans_lt (by decide), lum_cast r g b, lum_le r g b⟩,
    fun _ _ _ _ _ _ => lum_mono, lum_grey⟩

/-- R113: the test without a division is the comparison with the floored average. -/
theorem avg3ge_eq_average (r g b c : Byte) :
    avg3ge r g b c = decide (c.toNat ≤ (r.toNat + g.toNat + b.toNat) / 3) := by
  refine decide_eq_decide.mpr ?_
  rw [Nat.le_div_iff_mul_le (by decide), Nat.mul_comm]

theorem avg3ge_grey (g c : Byte) : avg3ge g g g c = decide (c.toNat ≤ g.toNat) := by
  refine decide_eq_decide.mpr ?_
  omega

theorem thr1_eq (r g b c : Byte) : thr1 r g b c = if 3 * c.toNat ≤ r.toNat + g.toNat + b.toNat then 0 else 255 := by
  simp only [thr1, avg3ge, decide_eq_true_eq]

/-- Settles O30: `THR1` by its definition, and the two readings of `AVG3GE`. -/
theorem thresholdDecision : Obligations.ThresholdDecision := ⟨thr1_eq, avg3ge_eq_average, avg3ge_grey⟩

-- Error diffusion over the luminances (R115, R133 to R138)

/-- R135: the error of pixel `q`, as pass 2 of `RED.D` launched in `s` computes it. -/
def State.visitedError (s : State) (q : Nat) : Int :=
  diffusionError (s.visited q) (quantise (s.visited q) s.contrast)

/-- One more pixel of pass 2 adds its error to each slot, once per tap that reaches it (R137). -/
theorem pass2_succ_workAt (s : State) (p k : Nat) : (s.pass2 (p + 1)).workAt k = (s.pass2 p).workAt k +
    ((tapOffsets s.width.toNat).map fun d => if 4 * p + d = k ∧ k < 4 * s.pixels then s.visitedError p else 0).sum := by
  have hk := pass2_keeps s p
  rw [pass2_succ, diffusePixel_workAt, hk.width, hk.pixels, hk.contrast]
  rfl

/-- A slot as far as pass 2 has come: what pass 1 left, and the errors of the pixels visited, one for each tap that leads from
such a pixel to the slot (R138). -/
theorem pass2_workAt (s : State) (p k : Nat) : (s.pass2 p).workAt k = (luminancePass s.begin).workAt k +
    ((List.range p).map fun q => ((tapOffsets s.width.toNat).map fun d =>
      if 4 * q + d = k ∧ k < 4 * s.pixels then s.visitedError q else 0).sum).sum := by
  induction p with
  | zero => rw [pass2_zero, List.range_zero, List.map_nil, List.sum_nil, Int.add_zero]
  | succ p ih =>
    rw [pass2_succ_workAt, ih, List.range_succ, List.map_append, List.sum_append, List.map_singleton, List.sum_singleton,
      Int.add_assoc]

/-- R115: the slot of a pixel when pass 2 starts. -/
theorem luminancePass_begin_workAt {s : State} {p : Nat} (hp : p < s.pixels) :
    (luminancePass s.begin).workAt (4 * p) = lum (s.redSample p) (s.greenSample p) (s.blueSample p) := by
  rw [luminancePass_workAt, if_pos ⟨by omega, by rw [State.begin_pixels]; omega⟩, Nat.mul_div_cancel_left p (by decide)]
  rfl

/-- R138: the value visited is the pixel's luminance and the errors of the earlier pixels, one for each tap that leads to it. -/
theorem visited_eq {s : State} {p : Nat} (hp : p < s.pixels) :
    s.visited p = (lum (s.redSample p) (s.greenSample p) (s.blueSample p) : Int) +
      ((List.range p).map fun q => ((tapOffsets s.width.toNat).map fun d =>
        if 4 * q + d = 4 * p then s.visitedError q else 0).sum).sum := by
  have hin : 4 * p < 4 * s.pixels := by omega
  rw [State.visited, pass2_workAt, luminancePass_begin_workAt hp]
  simp only [hin, and_true]

/-- R134: the entries that pass 2 has written are the quantised values visited. -/
theorem pass2_redAt {s : State} {p q : Nat} (hq : q < p) : (s.pass2 p).redAt q = quantise (s.visited q) s.contrast := by
  induction p with
  | zero => omega
  | succ p ih =>
    rw [pass2_succ, diffusePixel_redAt, (pass2_keeps s p).contrast]
    by_cases h : q = p
    · rw [if_pos h, h, State.visited]
    · rw [if_neg h, ih (by omega)]

theorem runRedD_redAt {s : State} {p : Nat} (hp : p < s.pixels) :
    (runRedD s.begin).redAt p = quantise (s.visited p) s.contrast := by
  obtain ⟨hred, -⟩ := runRedD_from_pass2 s
  rw [hred, pass2_redAt hp]

/-- Settles O8: the values visited and their errors are the two sequences. -/
theorem redDCompletes : Obligations.RedDCompletes := by
  intro s hr
  refine ⟨_, exec_of_ready (i := .redD) hr, runRedD_only s.begin, ⟨s.visited, s.visitedError, fun p hp => ?_⟩,
    fun p hp => runCommand_redAt_of_le .redD (s := s.begin) hp⟩
  have hentry : (runCommand .redD s.begin).redAt p = quantise (s.visited p) s.contrast := runRedD_redAt hp
  refine ⟨?_, hentry, ?_⟩
  · rw [visited_eq hp, lum_cast]
    rfl
  · rw [hentry]
    rfl

end Sys2Proof.Machine
end

section
/-! PROOFS. The obligations of spec/41_threshold_or_diffusion.md: the launch faults of the reducer (R130, R203), threshold mode
(R131), and error diffusion: the error (R135), the taps that coincide (R139) and the range of the working values (R140). -/

namespace Sys2Proof.Machine

-- The launch checks (R130, R201, R203)

/-- A reducer command whose check finds a cause raises it, and changes nothing but `STATUS` (R204). -/
theorem exec_of_reducerCheck_some {i : Instr} {s : State} {c : LaunchFault} (hi : i = .redT ∨ i = .redD)
    (hc : s.reducerCheck = some c) : exec i s = .next (s.setStatus (.fault c)) := by
  have hcheck : s.launchCheck i = some c := by rcases hi with rfl | rfl <;> exact hc
  rw [exec_eq_launch, hcheck, launch_fault]

/-- Settles O11: the check takes the causes in the order of their codes. -/
theorem reducerLaunchFaults : Obligations.ReducerLaunchFaults := by
  intro i s hi
  refine ⟨fun hdim => ?_, fun hw hh hmax => ?_, fun hw hh hmax hlen => ?_⟩
  · exact exec_of_reducerCheck_some hi (if_pos hdim)
  · exact exec_of_reducerCheck_some hi ((if_neg (not_or.mpr ⟨hw, hh⟩)).trans (if_pos hmax))
  · exact exec_of_reducerCheck_some hi
      ((if_neg (not_or.mpr ⟨hw, hh⟩)).trans ((if_neg (Nat.not_lt.mpr hmax)).trans (if_pos hlen)))

-- Threshold mode (R131, R132)

/-- R131: the entry of a pixel in threshold mode, by the samples at its offset. -/
theorem runRedT_begin_redAt {s : State} {p : Nat} (hp : p < s.pixels) : (runRedT s.begin).redAt p =
    if 3 * s.contrast.toNat ≤ (s.pixAt (4 * p)).toNat + (s.pixAt (4 * p + 1)).toNat + (s.pixAt (4 * p + 2)).toNat
    then 0 else 255 := by
  rw [runRedT_redAt, State.begin_pixels, if_pos hp, thr1_eq]
  rfl

/-- Settles O7: the pass decides the entries of the image alone, and the end of the command sets `REDLEN` and `STATUS`. -/
theorem redTCompletes : Obligations.RedTCompletes := fun s hr =>
  ⟨runRedT s.begin, exec_of_ready (i := .redT) hr, runRedT_only s.begin, fun _ => runRedT_begin_redAt,
    fun _ hp => runCommand_redAt_of_le .redT (s := s.begin) hp⟩

/-- Three samples reach three times 255 only if each is 255. -/
theorem white_iff_sum_ge (r g b : Byte) :
    3 * (255 : Byte).toNat ≤ r.toNat + g.toNat + b.toNat ↔ r = 255 ∧ g = 255 ∧ b = 255 := by
  bv_omega

/-- Settles O31: every sum of samples reaches 0, and only that of white reaches 765. -/
theorem thresholdExtremes : Obligations.ThresholdExtremes := by
  intro s t h hd
  obtain rfl : t = runRedT s.begin := eq_runCommand_of_done h hd
  refine ⟨fun hc p hp => ?_, fun hc p hp => ?_⟩
  · rw [runRedT_begin_redAt hp, hc]
    exact if_pos (Nat.zero_le _)
  · rw [runRedT_begin_redAt hp, hc, ← white_iff_sum_ge]
    split
    · next hsum => exact iff_of_true rfl hsum
    · next hsum => exact iff_of_false (by decide) hsum

-- The error (R134, R135)

/-- Settles O32: integer division by 8 rounds toward minus infinity. -/
theorem diffusionErrorFloors : Obligations.DiffusionErrorFloors := by
  intro v newPixel
  unfold diffusionError floorDiv
  omega

theorem quantise_natCast (n : Nat) (c : Byte) : quantise n c = if n < c.toNat then 0 else 255 := by
  simp only [quantise, Int.ofNat_lt]

/-- R140: whichever entry is written, the difference of which the error is an eighth lies in `-255 .. 254`. -/
theorem diffusionError_quantise_bounds {v : Int} (hlo : -192 ≤ v) (hhi : v ≤ 441) (c : Byte) :
    -32 ≤ diffusionError v (quantise v c) ∧ diffusionError v (quantise v c) ≤ 31 := by
  have hc := c.isLt
  obtain ⟨hle, hlt⟩ := diffusionErrorFloors v (quantise v c)
  by_cases hv : v < (c.toNat : Int)
  · have hq : (quantise v c).toNat = 0 := by rw [quantise, if_pos hv]; rfl
    omega
  · have hq : (quantise v c).toNat = 255 := by rw [quantise, if_neg hv]; rfl
    omega

-- The values visited (R138, R139)

/-- Settles O33: the slot as pass 2 finds it, and the entry the command leaves. -/
theorem visitedValue : Obligations.VisitedValue := fun _ hr _ hp =>
  ⟨visited_eq hp, _, exec_of_ready (i := .redD) hr, runRedD_redAt hp⟩

/-- Settles O37: no pixel comes before pixel 0, so it is visited with its luminance alone. -/
theorem singlePixelDither : Obligations.SinglePixelDither := by
  intro s hr hw hh
  have hpixels : s.pixels = 1 := by rw [State.pixels, hw, hh]; rfl
  have hp : 0 < s.pixels := by omega
  have hvisited : s.visited 0 = lum (s.redSample 0) (s.greenSample 0) (s.blueSample 0) := by
    rw [visited_eq hp, List.range_zero, List.map_nil, List.sum_nil, Int.add_zero]
  have hentry := runRedD_redAt hp
  rw [hvisited, quantise_natCast] at hentry
  exact ⟨_, exec_of_ready (i := .redD) hr, (runRedD_redlen s.begin).trans hpixels, hentry⟩

-- The range of the working values (R140)

/-- By one tap, at most one pixel reaches a slot. -/
theorem sum_over_pixels_of_tap (e : Nat → Int) (d k p : Nat) :
    ((List.range p).map fun q => if 4 * q + d = k then e q else 0).sum = 0 ∨
      ∃ q < p, ((List.range p).map fun q => if 4 * q + d = k then e q else 0).sum = e q := by
  induction p with
  | zero => exact .inl rfl
  | succ p ih =>
    rw [List.range_succ, List.map_append, List.sum_append, List.map_singleton, List.sum_singleton]
    by_cases hk : 4 * p + d = k
    · have hearlier : ((List.range p).map fun q => if 4 * q + d = k then e q else 0).sum = 0 := by
        refine List.sum_eq_zero fun x hx => ?_
        obtain ⟨q, hq, rfl⟩ := List.mem_map.mp hx
        have hlt := List.mem_range.mp hq
        exact if_neg (by omega)
      exact .inr ⟨p, Nat.lt_succ_self p, by rw [hearlier, if_pos hk, Int.zero_add]⟩
    · rw [if_neg hk, Int.add_zero]
      exact ih.imp_right fun ⟨q, hq, he⟩ => ⟨q, Nat.lt_succ_of_lt hq, he⟩

/-- A slot receives at most one error by each tap, so a bound on the errors bounds their sum. -/
theorem sum_of_taps_bounds {e : Nat → Int} {p : Nat} (he : ∀ q < p, -32 ≤ e q ∧ e q ≤ 31) (ds : List Nat) (k : Nat) :
    -32 * (ds.length : Int) ≤
        ((List.range p).map fun q => (ds.map fun d => if 4 * q + d = k then e q else 0).sum).sum ∧
      ((List.range p).map fun q => (ds.map fun d => if 4 * q + d = k then e q else 0).sum).sum ≤
        31 * (ds.length : Int) := by
  induction ds with
  | nil => simp
  | cons d ds ih =>
    simp only [List.map_cons, List.sum_cons, List.sum_map_add, List.length_cons, Nat.cast_succ]
    rcases sum_over_pixels_of_tap e d k p with hs | ⟨q, hq, hs⟩
    · omega
    · have hbounds := he q hq
      omega

/-- Pass 2 starts from luminances, and as long as the errors stay in their range the six taps keep every slot in its own. -/
theorem pass2_workAt_bounds {s : State} {p q : Nat} (hq : q < s.pixels)
    (he : ∀ r < p, -32 ≤ s.visitedError r ∧ s.visitedError r ≤ 31) :
    -192 ≤ (s.pass2 p).workAt (4 * q) ∧ (s.pass2 p).workAt (4 * q) ≤ 441 := by
  have hin : 4 * q < 4 * s.pixels := by omega
  have hlum := lum_le (s.redSample q) (s.greenSample q) (s.blueSample q)
  have hsum := sum_of_taps_bounds he (tapOffsets s.width.toNat) (4 * q)
  have hsix : (tapOffsets s.width.toNat).length = 6 := rfl
  rw [pass2_workAt, luminancePass_begin_workAt hq]
  simp only [hin, and_true]
  omega

/-- R140: the errors stay in their range, by induction along the scan: those before a pixel bound its slot, and so its error. -/
theorem visitedError_bounds {s : State} {p : Nat} (hp : p < s.pixels) :
    -32 ≤ s.visitedError p ∧ s.visitedError p ≤ 31 := by
  induction p using Nat.strong_induction_on with
  | _ p ih =>
    obtain ⟨hlo, hhi⟩ := pass2_workAt_bounds hp fun q hq => ih q hq (hq.trans hp)
    exact diffusionError_quantise_bounds hlo hhi s.contrast

/-- Settles O34: with every error in its range, every slot is, and a visited value is a slot. -/
theorem workingValuesInRange : Obligations.WorkingValuesInRange := by
  intro s _
  have hslot : ∀ p ≤ s.pixels, ∀ q < s.pixels,
      -192 ≤ (s.pass2 p).workAt (4 * q) ∧ (s.pass2 p).workAt (4 * q) ≤ 441 := fun p hp q hq =>
    pass2_workAt_bounds hq fun r hr => visitedError_bounds (hr.trans_le hp)
  refine ⟨fun p hp => ?_, fun p hp q hq => ?_⟩
  · obtain ⟨hlo, hhi⟩ := hslot p hp.le p hp
    exact ⟨hlo, hhi, visitedError_bounds hp⟩
  · obtain ⟨hlo, hhi⟩ := hslot p hp q hq
    omega

-- Taps that coincide (R137, R139)

/-- What pixel `p` of pass 2 does to the slot of a pixel: the error of `p`, once per tap that leads there. -/
theorem diffusePixel_workAt_pixel {s : State} {q : Nat} (hq : q < s.pixels) (p : Nat) :
    (diffusePixel p s).workAt (4 * q) = s.workAt (4 * q) +
      ((tapOffsets s.width.toNat).map fun d => if 4 * p + d = 4 * q then
        diffusionError (s.workAt (4 * p)) (quantise (s.workAt (4 * p)) s.contrast) else 0).sum := by
  have hin : 4 * q < 4 * s.pixels := by omega
  rw [diffusePixel_workAt]
  simp only [hin, and_true]

/-- At `WIDTH` 1 the taps lead to three pixels, one of them the pixel itself. -/
theorem sum_taps_width_one (p q : Nat) (e : Int) :
    ((tapOffsets 1).map fun d => if 4 * p + d = 4 * q then e else 0).sum =
      if q = p then e else if q = p + 1 then 2 * e else if q = p + 2 then 3 * e else 0 := by
  rw [show tapOffsets 1 = [4, 8, 0, 4, 8, 8] from rfl]
  simp only [List.map_cons, List.map_nil, List.sum_cons, List.sum_nil]
  omega

/-- At `WIDTH` 2 the first two taps coincide with the third and the fourth. -/
theorem sum_taps_width_two (p q : Nat) (e : Int) :
    ((tapOffsets 2).map fun d => if 4 * p + d = 4 * q then e else 0).sum =
      if q = p + 1 ∨ q = p + 2 then 2 * e else if q = p + 3 ∨ q = p + 4 then e else 0 := by
  rw [show tapOffsets 2 = [4, 8, 4, 8, 12, 16] from rfl]
  simp only [List.map_cons, List.map_nil, List.sum_cons, List.sum_nil]
  omega

/-- At `WIDTH` 3 the second tap coincides with the third. -/
theorem sum_taps_width_three (p q : Nat) (e : Int) :
    ((tapOffsets 3).map fun d => if 4 * p + d = 4 * q then e else 0).sum =
      if q = p + 2 then 2 * e else if q = p + 1 ∨ q = p + 3 ∨ q = p + 4 ∨ q = p + 6 then e else 0 := by
  rw [show tapOffsets 3 = [4, 8, 8, 12, 16, 24] from rfl]
  simp only [List.map_cons, List.map_nil, List.sum_cons, List.sum_nil]
  omega

/-- Settles O36: at each width the six offsets are written out, and those that coincide bring the error once each. -/
theorem coincidentTapsAccumulate : Obligations.CoincidentTapsAccumulate := by
  refine fun s p => ⟨fun q hq => ⟨fun hw => ?_, fun hw => ?_, fun hw => ?_⟩, fun _ k hk =>
    diffusePixel_workAt_outside hk p⟩
  · rw [diffusePixel_workAt_pixel hq, hw, ← sum_taps_width_one]
    rfl
  · rw [diffusePixel_workAt_pixel hq, hw, ← sum_taps_width_two]
    rfl
  · rw [diffusePixel_workAt_pixel hq, hw, ← sum_taps_width_three]
    rfl

end Sys2Proof.Machine
end

section
/-! PROOFS. The obligations of spec/42_bit_packer.md: the array as one bit stream (R161), its padding (R162), the count of packed
bytes and the rows of whole bytes (R163), and arrays of one value (R164). -/

namespace Sys2Proof.Machine

-- The packed bytes of a completed frame (R161, R177)

theorem ready_of_done {i : Instr} {s t : State} (h : exec i s = .next t) (hd : t.status = .done) : s.Ready i := by
  rcases exec_cases h with ⟨c, rfl⟩ | ⟨hr, -⟩
  · cases hd
  · exact hr

section Frame

variable {s t : State} (h : exec .enc s = .next t) (hd : t.status = .done) {k : Nat}
include h hd

theorem exec_enc_header (hk : k < 8) : t.frameAt k = (s.begin.setTmp (headerTemps s.begin)).headerByte k := by
  rw [eq_runCommand_of_done h hd]
  exact (runEnc_frameAt s.begin k).trans (if_pos hk)

theorem exec_enc_packed (hk : k < ceilDiv s.pixels 8) : t.frameAt (8 + k) = s.packedByte k := by
  have hin : 8 + k < 8 + s.begin.packedBytes := Nat.add_lt_add_left hk 8
  have hbyte : t.frameAt (8 + k) = s.begin.packedByte (8 + k - 8) := by
    rw [eq_runCommand_of_done h hd]
    exact (runEnc_frameAt s.begin (8 + k)).trans (by rw [if_neg (by omega), if_pos hin])
  rw [hbyte, Nat.add_sub_cancel_left]
  exact packedByte_congr s.begin_entry k

end Frame

-- One bit stream (R161, R162)

/-- Padding is 0, and so is the bit of a zero entry. -/
theorem entry_ne_zero_iff (s : State) (q : Nat) : s.entry q ≠ 0 ↔ q < s.pixels ∧ s.redAt q ≠ 0 := by
  unfold State.entry
  split
  · next hq => simp only [hq, true_and]
  · next hq => simp only [hq, false_and, ne_eq, not_true_eq_false]

/-- Settles O23: packed byte `floor(q/8)` holds the group of `q`, in which `q` is entry `q mod 8`. -/
theorem flatBitStream : Obligations.FlatBitStream := by
  intro s t h hd q hq
  rw [exec_enc_packed h hd (by omega), packedByte_getLsbD s _ _ (by omega), Nat.div_add_mod]
  exact decide_eq_decide.mpr (entry_ne_zero_iff s q)

-- The sizes of the array (R161, R236)

/-- The same array read with its two sizes exchanged. -/
def State.swapSizes (s : State) : State := (s.setWidth s.height).setHeight s.width

theorem State.swapSizes_pixels (s : State) : s.swapSizes.pixels = s.pixels := Nat.mul_comm s.height.toNat s.width.toNat

theorem State.swapSizes_entry (s : State) (q : Nat) : s.swapSizes.entry q = s.entry q := by
  rw [State.entry, State.swapSizes_pixels]
  rfl

/-- What `ENC` checks is symmetric in `WIDTH` and `HEIGHT` (R233). -/
theorem State.EncoderReady.swapSizes {s : State} (h : s.EncoderReady) : s.swapSizes.EncoderReady := by
  obtain ⟨hwidth, hheight, hscale, hmax, hlen⟩ := h
  exact ⟨hheight, hwidth, hscale, s.swapSizes_pixels.trans_le hmax, hlen.trans s.swapSizes_pixels.symm⟩

/-- The opcode and `SCALE`, the first four bytes of the header, do not depend on the sizes (R88, R92). -/
theorem headerByte_congr {s t : State} (hc : t.cfg = s.cfg) (hs : t.scale = s.scale) {k : Nat} (hk : k < 4) :
    (t.setTmp (headerTemps t)).headerByte k = (s.setTmp (headerTemps s)).headerByte k := by
  rw [headerByte_of_temps, headerByte_of_temps, hc, hs]
  interval_cases k <;> rfl

/-- Settles O22: the packed bytes depend on the sizes through their product alone. -/
theorem swappedSizesPackAlike : Obligations.SwappedSizesPackAlike := by
  intro s t h hd
  obtain ⟨t', h', hd'⟩ : ∃ t', exec .enc s.swapSizes = .next t' ∧ t'.status = .done :=
    ⟨_, exec_of_ready (i := .enc) (State.EncoderReady.swapSizes (ready_of_done h hd)), runCommand_status .enc _⟩
  have hlen := exec_enc_framelen h hd
  refine ⟨t', h', hd', ?_, fun k hk hsize => ?_⟩
  · rw [exec_enc_framelen h' hd', State.swapSizes_pixels, hlen]
  · rcases hsize with h4 | h8
    · rw [exec_enc_header h' hd' (by omega), exec_enc_header h hd (by omega)]
      exact headerByte_congr (s := s.begin) (t := s.swapSizes.begin) rfl rfl h4
    · obtain ⟨j, rfl⟩ := Nat.exists_eq_add_of_le h8
      rw [exec_enc_packed h' hd' (by rw [State.swapSizes_pixels]; omega), exec_enc_packed h hd (by omega)]
      exact packedByte_congr s.swapSizes_entry j

-- Arrays of one value (R164)

theorem packedByte_of_zeros {s : State} (hz : ∀ p < s.pixels, s.redAt p = 0) (k : Nat) : s.packedByte k = 0 := by
  have hentry : ∀ q, s.entry q = 0 := fun q =>
    not_not.mp fun hq => ((entry_ne_zero_iff s q).mp hq).elim fun hin hne => hne (hz q hin)
  simp only [State.packedByte, hentry]
  rfl

/-- The value of the `n` highest bits of a byte. -/
theorem sum_high_bits : ∀ n ≤ 8, ((List.range 8).map fun j => if j < n then 2 ^ (7 - j) else 0).sum = 256 - 2 ^ (8 - n) := by
  decide

/-- A packed byte of set entries has a 1 for each entry of its group that exists. -/
theorem packedByte_of_set {s : State} (hset : ∀ p < s.pixels, s.redAt p ≠ 0) (k : Nat) :
    (s.packedByte k).toNat = 256 - 2 ^ (8 - min 8 (s.pixels - 8 * k)) := by
  rw [packedByte_toNat, ← sum_high_bits _ (Nat.min_le_left _ _)]
  refine congrArg List.sum (List.map_congr_left fun j hj => if_congr ?_ rfl rfl)
  have hj8 := List.mem_range.mp hj
  rw [and_iff_left_of_imp (hset (8 * k + j))]
  omega

/-- Settles O24: no bit of a byte is set, or one for each entry of its group that exists. -/
theorem uniformArraysPack : Obligations.UniformArraysPack := by
  intro s t h hd
  have hm := ceilDiv_eight s.pixels
  refine ⟨fun hz k hk => ?zeros, fun hset => ⟨fun k hk => ?full, fun hpad => ?partialByte⟩⟩
  case zeros => rw [exec_enc_packed h hd hk, packedByte_of_zeros hz]
  case full =>
    have hgroup : min 8 (s.pixels - 8 * k) = 8 := by omega
    rw [exec_enc_packed h hd (by omega)]
    exact BitVec.eq_of_toNat_eq (by rw [packedByte_of_set hset, hgroup]; rfl)
  case partialByte =>
    have hgroup : min 8 (s.pixels - 8 * (s.pixels / 8)) = s.pixels % 8 := by omega
    rw [exec_enc_packed h hd (by omega), packedByte_of_set hset, hgroup]

-- Rows of whole bytes (R163)

/-- Byte `c` of row `r` comes before the end of the rows. -/
theorem row_byte_lt {rows bytes r c : Nat} (hr : r < rows) (hc : c < bytes) : r * bytes + c < bytes * rows := by
  calc r * bytes + c
    _ < r * bytes + bytes := Nat.add_lt_add_left hc _
    _ = (r + 1) * bytes := (Nat.succ_mul r bytes).symm
    _ ≤ rows * bytes := Nat.mul_le_mul_right bytes hr
    _ = bytes * rows := Nat.mul_comm rows bytes

/-- Settles O25: with 8 pixels to a byte of a row, pixel `8*c + j` of row `r` is pixel `j` of byte `r * bytesPerRow + c`. -/
theorem alignedRowsOwnBytes : Obligations.AlignedRowsOwnBytes := by
  intro s t h hd
  obtain ⟨hlen, -, haligned⟩ := frameLength s t h hd
  refine ⟨hlen, fun hw => ⟨haligned (.inl hw), fun r hr c hc j hj => ?_⟩⟩
  have hwidth : s.width.toNat = 8 * bytesPerRow s.width.toNat := by unfold bytesPerRow ceilDiv; omega
  have hpixels : s.pixels = 8 * (bytesPerRow s.width.toNat * s.height.toNat) :=
    (congrArg (· * s.height.toNat) hwidth).trans (Nat.mul_assoc _ _ _)
  have hpixel : r * s.width.toNat + 8 * c + j = 8 * (r * bytesPerRow s.width.toNat + c) + j := by
    rw [Nat.mul_add, Nat.mul_left_comm, ← hwidth]
  have hbyte := row_byte_lt hr hc
  rw [hpixel]
  generalize r * bytesPerRow s.width.toNat + c = b at hbyte ⊢
  have hin : 8 * b + j < s.pixels := by omega
  have hbit := flatBitStream s t h hd (8 * b + j) (by rw [ceilDiv_eight]; omega)
  rw [show (8 * b + j) / 8 = b by omega, show (8 * b + j) % 8 = j by omega] at hbit
  rw [hbit]
  simp only [hin, true_and]

end Sys2Proof.Machine
end

section
/-! PROOFS. The obligations of spec/43_frame_formatter.md: the launch faults of `ENC` (R175, R203), what its frame depends on
(R180), and the byte that carries `SCALE` (R179). -/

namespace Sys2Proof.Machine

-- The launch checks (R175, R201, R203)

/-- A command whose check finds a cause raises it, and changes nothing but `STATUS` (R204). -/
theorem exec_of_launchCheck_some {i : Instr} {s : State} {c : LaunchFault} (hc : s.launchCheck i = some c) :
    exec i s = .next (s.setStatus (.fault c)) := by
  rw [exec_eq_launch, hc, launch_fault]

/-- Settles O12: the check takes the causes in the order of their codes. -/
theorem encoderLaunchFaults : Obligations.EncoderLaunchFaults := by
  refine fun s => ⟨fun hdim => ?_, fun hw hh hscale => ?_, fun hw hh hscale hmax => ?_,
    fun hw hh hscale hmax hlen => ?_⟩ <;> refine exec_of_launchCheck_some (i := .enc) ?_
  · exact if_pos hdim
  · exact (if_neg (not_or.mpr ⟨hw, hh⟩)).trans (if_pos hscale)
  · exact (if_neg (not_or.mpr ⟨hw, hh⟩)).trans ((if_neg (Nat.not_lt.mpr hscale)).trans (if_pos hmax))
  · exact (if_neg (not_or.mpr ⟨hw, hh⟩)).trans ((if_neg (Nat.not_lt.mpr hscale)).trans
      ((if_neg (Nat.not_lt.mpr hmax)).trans (if_pos hlen)))

-- Two completed frames, byte by byte (R176, R177)

/-- The header depends on the parameters, the sizes and, at offset 3 alone, on `SCALE`. -/
theorem headerByte_congr_sizes {s s' : State} (hcfg : s'.cfg = s.cfg) (hwidth : s'.width = s.width)
    (hheight : s'.height = s.height) {k : Nat} (hscale : k = 3 → s'.scale = s.scale) :
    (s'.setTmp (headerTemps s')).headerByte k = (s.setTmp (headerTemps s)).headerByte k := by
  rw [headerByte_of_temps, headerByte_of_temps, hcfg, hwidth, hheight]
  rcases k with _ | _ | _ | _ | _ | _ | _ | k
  case succ.succ.succ.zero => exact hscale rfl
  all_goals rfl

section TwoFrames

variable {s s' t t' : State} (h : exec .enc s = .next t) (hd : t.status = .done)
  (h' : exec .enc s' = .next t') (hd' : t'.status = .done) (hwidth : s'.width = s.width) (hheight : s'.height = s.height)
include h hd h' hd' hwidth hheight

theorem exec_enc_framelen_congr : t'.framelen = t.framelen := by
  rw [exec_enc_framelen h' hd', exec_enc_framelen h hd, State.pixels, State.pixels, hwidth, hheight]

/-- Frames of arrays of the same sizes and entries agree at every offset, but for `SCALE` at offset 3. -/
theorem exec_enc_frameAt_congr (hcfg : s'.cfg = s.cfg) (hentry : ∀ q, s'.entry q = s.entry q) {k : Nat}
    (hk : k < t.framelen) (hscale : k = 3 → s'.scale = s.scale) : t'.frameAt k = t.frameAt k := by
  have hlen := exec_enc_framelen h hd
  have hlen' := (exec_enc_framelen h' hd').symm.trans (exec_enc_framelen_congr h hd h' hd' hwidth hheight)
  by_cases h8 : k < 8
  · rw [exec_enc_header h' hd' h8, exec_enc_header h hd h8]
    exact headerByte_congr_sizes (s := s.begin) (s' := s'.begin) hcfg hwidth hheight hscale
  · obtain ⟨j, rfl⟩ := Nat.exists_eq_add_of_le (Nat.not_lt.mp h8)
    rw [exec_enc_packed h' hd' (by omega), exec_enc_packed h hd (by omega)]
    exact packedByte_congr hentry j

end TwoFrames

-- What `ENC` depends on (R180)

section EncoderInput

variable {s s' : State} (h : SameEncoderInput s s')
include h

theorem SameEncoderInput.pixels : s'.pixels = s.pixels := by
  obtain ⟨-, hwidth, hheight, -⟩ := h
  rw [State.pixels, State.pixels, hwidth, hheight]

theorem SameEncoderInput.encoderCheck : s'.encoderCheck = s.encoderCheck := by
  have hpixels := h.pixels
  obtain ⟨hcfg, hwidth, hheight, hscale, hredlen, -⟩ := h
  simp only [State.encoderCheck, hpixels, hcfg, hwidth, hheight, hscale, hredlen]

/-- Once the check has found `REDLEN` to be the pixel count, the entries to pack are among those that agree. -/
theorem SameEncoderInput.entry (hlen : s.redlen = s.pixels) (q : Nat) : s'.entry q = s.entry q := by
  have hpixels := h.pixels
  obtain ⟨-, -, -, -, -, hred⟩ := h
  rw [State.entry, State.entry, hpixels]
  exact ite_congr rfl (fun hq => hred q (hlen ▸ hq)) fun _ => rfl

end EncoderInput

theorem done_of_ready {i : Instr} {s t : State} (hr : s.Ready i) (h : exec i s = .next t) : t.status = .done := by
  rw [exec_of_ready hr] at h
  rw [← Host.Outcome.next.inj h, runCommand_status]

/-- Settles O20: the check and the frame read the encoder's input alone. -/
theorem encPure : Obligations.EncPure := by
  intro s s' t t' hsame h h'
  have hcheck : s'.launchCheck .enc = s.launchCheck .enc := hsame.encoderCheck
  cases hc : s.launchCheck .enc with
  | some c =>
    rw [exec_of_launchCheck_some hc] at h
    rw [exec_of_launchCheck_some (hcheck.trans hc)] at h'
    rw [← Host.Outcome.next.inj h, ← Host.Outcome.next.inj h']
    exact ⟨rfl, nofun⟩
  | none =>
    have hr : s.EncoderReady := (launchCheck_eq_none_iff s .enc).mp hc
    have hd := done_of_ready (i := .enc) hr h
    have hd' := done_of_ready ((launchCheck_eq_none_iff s' .enc).mp (hcheck.trans hc)) h'
    obtain ⟨-, -, -, -, hlen⟩ := hr
    have hentry := hsame.entry hlen
    obtain ⟨hcfg, hwidth, hheight, hscale, -⟩ := hsame
    exact ⟨hd'.trans hd.symm, fun _ => ⟨exec_enc_framelen_congr h hd h' hd' hwidth hheight,
      fun _ hk => exec_enc_frameAt_congr h hd h' hd' hwidth hheight hcfg hentry hk fun _ => hscale⟩⟩

-- `SCALE` (R92, R179)

theorem exec_enc_frameAt_three {s t : State} (h : exec .enc s = .next t) (hd : t.status = .done) :
    t.frameAt 3 = s.scale := exec_enc_header h hd (by decide)

/-- Settles O21: `SCALE` is copied to offset 3, and replacing it leaves the sizes and the entries. -/
theorem scalePassthrough : Obligations.ScalePassthrough := fun _ _ _ _ h hd h' hd' =>
  ⟨exec_enc_frameAt_three h hd, exec_enc_frameAt_three h' hd', exec_enc_framelen_congr h hd h' hd' rfl rfl,
    fun _ hk h3 => exec_enc_frameAt_congr h hd h' hd' rfl rfl rfl (fun _ => rfl) hk fun he => absurd he h3⟩

end Sys2Proof.Machine
end

section
/-! PROOFS. The obligations of spec/60_exceptions.md: a fault is precise (R204, R205), and the two level outputs (R207). -/

namespace Sys2Proof.Machine

/-- Settles O13: a launch that does not end in `DONE` only raises a fault, and the cause it raises is the one `STATUS` shows. -/
theorem faultChangesOnlyStatus : Obligations.FaultChangesOnlyStatus := by
  intro i s t c h hfault
  obtain ⟨c', ht⟩ := eq_setStatus_of_not_done h (by rw [hfault]; exact nofun)
  have hcause : Status.fault c' = .fault c := by rw [← hfault, ht, State.setStatus_status]
  rw [ht, hcause, State.setStatus]

theorem Status.stateField_eq_two_iff (st : Status) : st.stateField = 2 ↔ st = .done := by
  cases st <;> simp [Status.stateField]

theorem Status.stateField_eq_three_iff (st : Status) : st.stateField = 3 ↔ ∃ c, st = .fault c := by
  cases st <;> simp [Status.stateField]

/-- Settles O48: each output compares the state field of `STATUS` with the code of its state. -/
theorem outputsMirrorStatus : Obligations.OutputsMirrorStatus := fun s =>
  ⟨beq_iff_eq.trans s.status.stateField_eq_two_iff, beq_iff_eq.trans s.status.stateField_eq_three_iff⟩

end Sys2Proof.Machine
end

section
/-! PROOFS. The obligation of spec/70_reset_and_hazards.md on a launch that fails its checks (R202, R238). -/

namespace Sys2Proof.Machine

/-- Settles O39: both grains raise the cause that the launch check finds, and change nothing else. -/
theorem failedLaunchTakesNoSmallStep : Obligations.FailedLaunchTakesNoSmallStep := by
  intro i s hr
  obtain ⟨c, hexec, hstart⟩ := launch_of_not_ready hr
  rw [hexec, hstart]

end Sys2Proof.Machine
end
